-- ==== Sys2Proof/Config.lean ====
section
/-! DEFINITION. What the spec leaves open: the parameter CH_MAX, the memories' contents at reset, and the bytes a
reset during a command leaves. Every one is an opaque constant, so that no proof can see its value. -/

namespace Sys2Proof.Config

/-- The part of CH_MAX above its least value (log entry 2): one of the 2^32 − 8 values that 00_scope.md R6 allows. -/
opaque chMaxExtra : Fin 4294967288

/-- CH_MAX, the number of bytes of memory CH: 12 ≤ CH_MAX ≤ 2^32 + 3 (00_scope.md R6, 93_implementation_defined.md U8). -/
def chMax : Nat := chMaxExtra.val + 12

/-- The least value of CH_MAX (00_scope.md R6). -/
theorem chMax_ge : 12 ≤ chMax := Nat.le_add_left _ _

/-- The greatest value of CH_MAX (00_scope.md R6). -/
theorem chMax_le : chMax ≤ 4294967299 := by
  have := chMaxExtra.isLt
  unfold chMax
  omega

/-- CH_MAX fits the 40 bits of register CHMAX (10_state.md R18). -/
theorem chMax_lt : chMax < 2 ^ 40 := Nat.lt_of_le_of_lt chMax_le (by decide)

/-- The byte PAY[a] holds after reset until it is written: any value, stable (70_reset_and_hazards.md R151; log entry 1). -/
opaque payInit : Nat → BitVec 8

/-- The byte FRM[a] holds after reset until it is written (70_reset_and_hazards.md R151; log entry 1). -/
opaque frmInit : Nat → BitVec 8

/-- The byte CH[a] holds after reset until it is written (70_reset_and_hazards.md R151; log entry 1). -/
opaque chInit : Nat → BitVec 8

/-- The n-th unspecified byte that a reset arriving during a command leaves in a memory (70_reset_and_hazards.md R150,
93_implementation_defined.md U7; log entry 6). -/
opaque freeByte : Nat → BitVec 8

end Sys2Proof.Config
end

