-- ==== Sys2Proof/Word.lean ====
section
/-! DEFINITION. The words the block works on: bytes, the 40-bit immediate, the 64-bit command and response words. -/

namespace Sys2Proof

/-- A byte of a memory, or field OPC, A or B of a command word (00_scope.md R8, 30_encoding.md R50). -/
abbrev Byte := BitVec 8

/-- Field IMM of a command word, field DATA of a response word (30_encoding.md R50, R57). -/
abbrev Imm := BitVec 40

/-- A command word or a response word (30_encoding.md R50, R57). -/
abbrev Word := BitVec 64

end Sys2Proof
end

