-- ==== Sys2Proof/Syntax.lean ====
section
/-! DEFINITION. The eleven commands with their operands, the registers, the memory spaces, the opcodes and formats
(30_encoding.md R51 to R53). -/

namespace Sys2Proof

/-- The three memory spaces (10_state.md R10, 20_memory.md R30). -/
inductive Space where
  /-- Space 0, the payload. -/
  | pay
  /-- Space 1, the framed payload. -/
  | frm
  /-- Space 2, the channel array. -/
  | ch
  deriving DecidableEq, Repr

/-- The five numbered registers (10_state.md R10). -/
inductive Reg where
  /-- Register 0, the bit width. -/
  | k
  /-- Register 1, the payload length. -/
  | len
  /-- Register 2, the grid's width and height. -/
  | grid
  /-- Register 3, the sticky error log; read-only. -/
  | esticky
  /-- Register 4, the constant CH_MAX; read-only. -/
  | chmax
  deriving DecidableEq, Repr

/-- The operation codes of the opcode map (30_encoding.md R52). -/
inductive Opcode where
  | nop | rreg | wreg | rbyte | wbyte | getbit | setbit | frame | plan | embed | extract
  deriving DecidableEq, Repr

/-- The seven formats: which of A, B and IMM a command uses (30_encoding.md R51). -/
inductive Format where
  | z | rr | rw | mr | mw | br | bw
  deriving DecidableEq, Repr

/-- A command, one constructor for each row of spec/opcode_table.json. -/
inductive Instr where
  /-- No operation (40_host_access.md R70). -/
  | nop
  /-- Read register `n` (40_host_access.md R71). -/
  | rreg (n : Reg)
  /-- Write `v` to register `n` (40_host_access.md R72). -/
  | wreg (n : Reg) (v : Imm)
  /-- Read the byte at address `a` of `sp` (40_host_access.md R73). -/
  | rbyte (sp : Space) (a : Imm)
  /-- Write `d` at address `a` of `sp` (40_host_access.md R74). -/
  | wbyte (sp : Space) (d : Byte) (a : Imm)
  /-- Read the bit with index `j` of `sp` (41_bitstream.md R82). -/
  | getbit (sp : Space) (j : Imm)
  /-- Set the bit with index `j` of `sp` to `b` (41_bitstream.md R83). -/
  | setbit (sp : Space) (b : Bool) (j : Imm)
  /-- Build the framed payload in FRM (42_framing.md R92). -/
  | frame
  /-- Compute the smallest sufficient bit width (43_capacity.md R102). -/
  | plan
  /-- Frame the payload and pack it into CH (44_lsbcodec.md R114). -/
  | embed
  /-- Unpack a framed payload from CH and deframe it (44_lsbcodec.md R116). -/
  | extract
  deriving DecidableEq, Repr

end Sys2Proof
end

