-- ==== Sys2Proof/WellFormed.lean ====
section
/-! DEFINITION. Which commands as written have legal operands. The operand types admit only existing registers and
spaces, so one check is left: WREG names a writable register (30_encoding.md R53, R56 item 4). -/

namespace Sys2Proof

/-- WREG accepts registers 0 to 2; ESTICKY and CHMAX are read-only (30_encoding.md R53). -/
def Reg.writable : Reg → Bool
  | .k => true
  | .len => true
  | .grid => true
  | .esticky => false
  | .chmax => false

/-- The command's operands are ones the decoder accepts (30_encoding.md R53, R56). -/
def Instr.wellFormed : Instr → Bool
  | .nop => true
  | .rreg _ => true
  | .wreg n _ => n.writable
  | .rbyte _ _ => true
  | .wbyte _ _ _ => true
  | .getbit _ _ => true
  | .setbit _ _ _ => true
  | .frame => true
  | .plan => true
  | .embed => true
  | .extract => true

end Sys2Proof
end

