-- ==== Sys2Proof/Decode.lean ====
section
/-! DEFINITION. The command word's fields, the opcode map, the decoder (total over all 2^64 words) and the encoder
(30_encoding.md R50 to R56, R61). -/

namespace Sys2Proof

/-! ### The fields of a command word (30_encoding.md R50) -/

/-- Bits 63:56, the operation code. -/
def opcOf (w : Word) : Byte := w.extractLsb' 56 8

/-- Bits 55:48, a register number or a space id. -/
def aOf (w : Word) : Byte := w.extractLsb' 48 8

/-- Bits 47:40, a data byte or a data bit. -/
def bOf (w : Word) : Byte := w.extractLsb' 40 8

/-- Bits 39:0, a byte address, a bit index or a register value; unsigned, used as is (30_encoding.md R54). -/
def immOf (w : Word) : Imm := w.extractLsb' 0 40

/-- The word OPC·2^56 + A·2^48 + B·2^40 + IMM. -/
def makeWord (opc a b : Byte) (imm : Imm) : Word := opc ++ a ++ b ++ imm

/-! ### The opcode map (30_encoding.md R51, R52) -/

/-- The operation code's number. -/
def Opcode.toByte : Opcode → Byte
  | .nop => 0x00
  | .rreg => 0x01
  | .wreg => 0x02
  | .rbyte => 0x03
  | .wbyte => 0x04
  | .getbit => 0x10
  | .setbit => 0x11
  | .frame => 0x20
  | .plan => 0x21
  | .embed => 0x22
  | .extract => 0x23

/-- Step (1) of decoding: look OPC up; a number that is not in the map has no operation (30_encoding.md R56 item 1). -/
def Opcode.ofByte (b : Byte) : Option Opcode :=
  if b = 0x00 then some .nop
  else if b = 0x01 then some .rreg
  else if b = 0x02 then some .wreg
  else if b = 0x03 then some .rbyte
  else if b = 0x04 then some .wbyte
  else if b = 0x10 then some .getbit
  else if b = 0x11 then some .setbit
  else if b = 0x20 then some .frame
  else if b = 0x21 then some .plan
  else if b = 0x22 then some .embed
  else if b = 0x23 then some .extract
  else none

/-- The format of each command. -/
def Opcode.format : Opcode → Format
  | .nop => .z
  | .rreg => .rr
  | .wreg => .rw
  | .rbyte => .mr
  | .wbyte => .mw
  | .getbit => .br
  | .setbit => .bw
  | .frame => .z
  | .plan => .z
  | .embed => .z
  | .extract => .z

/-- Step (2) of decoding: every field the format does not use is zero (30_encoding.md R55). In format BW the unused part
of B is B[7:1], so B is 0 or 1. -/
def Format.unusedZero (f : Format) (w : Word) : Bool :=
  match f with
  | .z => aOf w == 0 && bOf w == 0 && immOf w == 0
  | .rr => bOf w == 0 && immOf w == 0
  | .rw => bOf w == 0
  | .mr => bOf w == 0
  | .mw => true
  | .br => bOf w == 0
  | .bw => (bOf w).extractLsb' 1 7 == 0

/-! ### Field A (30_encoding.md R53) -/

/-- The register's number. -/
def Reg.toByte : Reg → Byte
  | .k => 0
  | .len => 1
  | .grid => 2
  | .esticky => 3
  | .chmax => 4

/-- The register with a number; 5 to 255 do not exist (10_state.md R10). -/
def Reg.ofByte (b : Byte) : Option Reg :=
  if b = 0 then some .k
  else if b = 1 then some .len
  else if b = 2 then some .grid
  else if b = 3 then some .esticky
  else if b = 4 then some .chmax
  else none

/-- The space's id. -/
def Space.toByte : Space → Byte
  | .pay => 0
  | .frm => 1
  | .ch => 2

/-- The space with an id; 3 to 255 do not exist (10_state.md R10). -/
def Space.ofByte (b : Byte) : Option Space :=
  if b = 0 then some .pay
  else if b = 1 then some .frm
  else if b = 2 then some .ch
  else none

/-! ### Decoding (30_encoding.md R56, R61) -/

/-- Why a word is illegal: one name for each item of 30_encoding.md R56. -/
inductive Illegal where
  /-- Item 1: OPC is not in the opcode map. -/
  | opcode
  /-- Item 2: a field the format does not use is not zero. -/
  | unusedField
  /-- Items 3 and 4: no such register. -/
  | register
  /-- Item 4: WREG names a read-only register. -/
  | readOnly
  /-- Item 5: no such space. -/
  | space
  deriving DecidableEq, Repr

/-- Step (3) of decoding for the commands that name a space. -/
def withSpace (w : Word) (mk : Space → Instr) : Except Illegal Instr :=
  match Space.ofByte (aOf w) with
  | none => .error .space
  | some sp => .ok (mk sp)

/-- Steps (3) of decoding: check A and take the operands from their fields. -/
def decodeOperands (o : Opcode) (w : Word) : Except Illegal Instr :=
  match o with
  | .nop => .ok .nop
  | .rreg =>
    match Reg.ofByte (aOf w) with
    | none => .error .register
    | some n => .ok (.rreg n)
  | .wreg =>
    match Reg.ofByte (aOf w) with
    | none => .error .register
    | some n => if n.writable then .ok (.wreg n (immOf w)) else .error .readOnly
  | .rbyte => withSpace w fun sp => .rbyte sp (immOf w)
  | .wbyte => withSpace w fun sp => .wbyte sp (bOf w) (immOf w)
  | .getbit => withSpace w fun sp => .getbit sp (immOf w)
  | .setbit => withSpace w fun sp => .setbit sp ((bOf w).getLsbD 0) (immOf w)
  | .frame => .ok .frame
  | .plan => .ok .plan
  | .embed => .ok .embed
  | .extract => .ok .extract

/-- The decoder: a verdict for every one of the 2^64 words, in the order of 30_encoding.md R61. -/
def decode (w : Word) : Except Illegal Instr :=
  match Opcode.ofByte (opcOf w) with
  | none => .error .opcode
  | some o => if o.format.unusedZero w then decodeOperands o w else .error .unusedField

/-- The word whose low `nbits` bits are those of `w`, numbered as spec/opcode_table.json numbers them, and whose other
bits are 0. -/
def tableWord (nbits w : Nat) : Word := BitVec.ofNat 64 (w % 2 ^ nbits)

/-- The command the decoder reads from a word given as the opcode table gives it; none where the word is illegal. -/
def decodeTableWord (nbits w : Nat) : Option Instr := (decode (tableWord nbits w)).toOption

/-! ### Encoding (30_encoding.md R50 to R53, the table of R59) -/

/-- The operation code of a command. -/
def Instr.opcode : Instr → Opcode
  | .nop => .nop
  | .rreg _ => .rreg
  | .wreg _ _ => .wreg
  | .rbyte _ _ => .rbyte
  | .wbyte _ _ _ => .wbyte
  | .getbit _ _ => .getbit
  | .setbit _ _ _ => .setbit
  | .frame => .frame
  | .plan => .plan
  | .embed => .embed
  | .extract => .extract

/-- The command word of a command. -/
def encode : Instr → Word
  | .nop => makeWord Opcode.nop.toByte 0 0 0
  | .rreg n => makeWord Opcode.rreg.toByte n.toByte 0 0
  | .wreg n v => makeWord Opcode.wreg.toByte n.toByte 0 v
  | .rbyte sp a => makeWord Opcode.rbyte.toByte sp.toByte 0 a
  | .wbyte sp d a => makeWord Opcode.wbyte.toByte sp.toByte d a
  | .getbit sp j => makeWord Opcode.getbit.toByte sp.toByte 0 j
  | .setbit sp b j => makeWord Opcode.setbit.toByte sp.toByte (if b then 1 else 0) j
  | .frame => makeWord Opcode.frame.toByte 0 0 0
  | .plan => makeWord Opcode.plan.toByte 0 0 0
  | .embed => makeWord Opcode.embed.toByte 0 0 0
  | .extract => makeWord Opcode.extract.toByte 0 0 0

/-! ### The opcode table of 30_encoding.md R52, as rows of match, mask and the constraint on A -/

/-- One row: a word selects it when `w &&& mask = pattern` and A is at most `maxA`, where the row bounds A. -/
structure Row where
  /-- The row's command. -/
  opcode : Opcode
  /-- The row's `match`. -/
  pattern : Word
  /-- The row's `mask`. -/
  mask : Word
  /-- The row's field constraint, the greatest legal A, or none. -/
  maxA : Option Nat
  deriving DecidableEq, Repr

/-- The eleven rows. -/
def opcodeTable : List Row :=
  [ ⟨.nop, 0x0000000000000000, 0xFFFFFFFFFFFFFFFF, none⟩,
    ⟨.rreg, 0x0100000000000000, 0xFF00FFFFFFFFFFFF, some 4⟩,
    ⟨.wreg, 0x0200000000000000, 0xFF00FF0000000000, some 2⟩,
    ⟨.rbyte, 0x0300000000000000, 0xFF00FF0000000000, some 2⟩,
    ⟨.wbyte, 0x0400000000000000, 0xFF00000000000000, some 2⟩,
    ⟨.getbit, 0x1000000000000000, 0xFF00FF0000000000, some 2⟩,
    ⟨.setbit, 0x1100000000000000, 0xFF00FE0000000000, some 2⟩,
    ⟨.frame, 0x2000000000000000, 0xFFFFFFFFFFFFFFFF, none⟩,
    ⟨.plan, 0x2100000000000000, 0xFFFFFFFFFFFFFFFF, none⟩,
    ⟨.embed, 0x2200000000000000, 0xFFFFFFFFFFFFFFFF, none⟩,
    ⟨.extract, 0x2300000000000000, 0xFFFFFFFFFFFFFFFF, none⟩ ]

/-- The word selects the row (30_encoding.md R52). -/
def Row.selects (r : Row) (w : Word) : Bool :=
  w &&& r.mask == r.pattern &&
    match r.maxA with
    | none => true
    | some n => decide ((aOf w).toNat ≤ n)

end Sys2Proof
end

