-- ==== Sys2Proof/Machine/State.lean ====
section
/-! DEFINITION. The state of the block (10_state.md R10), its two ports (70_reset_and_hazards.md R161), the error kinds
(60_exceptions.md R131) and the state after reset (10_state.md R26). -/

namespace Sys2Proof.Machine

/-- The eight error kinds; codes 1 to 5 are the source's, 6 to 8 the interface's (60_exceptions.md R131). -/
inductive ErrCode where
  /-- 1, PLAN: the payload fits at no bit width up to 8. -/
  | insufficientCapacity
  /-- 2, EMBED: the frame has more bits than the grid offers at K. -/
  | capacityExceeded
  /-- 3, EXTRACT: the grid is too small for the length prefix. -/
  | truncatedStream
  /-- 4, EXTRACT: the declared length does not fit the grid. -/
  | lengthOverflow
  /-- 5, PLAN, EMBED, EXTRACT: the grid has no pixels. -/
  | degenerateInput
  /-- 6, WREG: the value is not legal for the register. -/
  | badParam
  /-- 7, RBYTE, WBYTE, GETBIT, SETBIT: beyond the physical size of the space. -/
  | addrRange
  /-- 8, any word: not a legal command. -/
  | illegalCommand
  deriving DecidableEq, Repr

/-- What the host sends (70_reset_and_hazards.md R161). -/
inductive HostInput where
  /-- One command word. -/
  | command (w : Word)
  /-- The reset event between commands (log entry 5). -/
  | reset
  /-- The reset event arriving while the block executes the command word `w`, if the transport allows it
  (70_reset_and_hazards.md R150; log entry 6). -/
  | resetDuring (w : Word)
  deriving DecidableEq, Repr

/-- A memory: (address, byte) pairs, addresses strictly rising, no pair equal to what an unlisted address reads as. -/
abbrev Memory := List Host.Cell

/-- The complete state (10_state.md R10), the ports and the model's own free-value counter. -/
structure State where
  /-- Register K (10_state.md R14). -/
  k : BitVec 4
  /-- Register LEN (10_state.md R15). -/
  len : BitVec 32
  /-- Register GRID (10_state.md R16). -/
  grid : BitVec 32
  /-- Register ESTICKY (10_state.md R17). -/
  esticky : BitVec 16
  /-- Register CHMAX, the parameter CH_MAX; no step writes it (10_state.md R18; log entry 2). -/
  chMax : BitVec 40
  /-- Memory PAY (10_state.md R20). -/
  pay : Memory
  /-- Memory FRM (10_state.md R21). -/
  frm : Memory
  /-- Memory CH (10_state.md R22). -/
  ch : Memory
  /-- The command index, a modelling device (10_state.md R12). -/
  cc : Nat
  /-- The command port: what the host has sent and the block has not yet taken, oldest first (log entry 3). -/
  inputs : List HostInput
  /-- The response port: every response returned, oldest first (30_encoding.md R57; log entry 3). -/
  responses : List Word
  /-- How many free bytes have been used, the model's own field (log entry 6). -/
  freeNext : Nat
  deriving DecidableEq, Repr

/-- Reasons to stop: there is none. No command traps, hangs or stops the block, and the step is total on all states and
all 2^64 words (60_exceptions.md R141); nothing raises a fault. -/
inductive Fault where
  deriving DecidableEq, Repr

/-- Reasons to refuse. -/
inductive Refusal where
  /-- Raised by an arm of `exec` whose command has no meaning yet, and by nothing else; safe. No arm raises it now. -/
  | notModelled (mnemonic : String)
  deriving DecidableEq, Repr

/-- The state after reset (10_state.md R26, 70_reset_and_hazards.md R150): K = 1, LEN = 0, GRID = 0, ESTICKY = 0, CHMAX =
CH_MAX, the memories unspecified (nothing listed, so every byte is free), nothing sent yet and nothing returned. -/
def State.reset : State where
  k := 1
  len := 0
  grid := 0
  esticky := 0
  chMax := BitVec.ofNatLT Config.chMax Config.chMax_lt
  pay := []
  frm := []
  ch := []
  cc := 0
  inputs := []
  responses := []
  freeNext := 0

end Sys2Proof.Machine
end

