-- ==== Sys2Proof/Machine/Flags.lean ====
section
/-! DEFINITION. Completion codes, the sticky error log ESTICKY (the block's only status state, 10_state.md R13, R17) and
the response word (30_encoding.md R57). -/

namespace Sys2Proof.Machine

/-- The completion code of an error kind (60_exceptions.md R131). -/
def ErrCode.code : ErrCode → BitVec 8
  | .insufficientCapacity => 1
  | .capacityExceeded => 2
  | .truncatedStream => 3
  | .lengthOverflow => 4
  | .degenerateInput => 5
  | .badParam => 6
  | .addrRange => 7
  | .illegalCommand => 8

/-- ESTICKY with the bit of the error set and no other bit changed (10_state.md R17, 60_exceptions.md R134). -/
def stickySet (esticky : BitVec 16) (e : ErrCode) : BitVec 16 := esticky ||| (1#16 <<< e.code.toNat)

/-- The response word: CODE in 63:56, zero in 55:40, DATA in 39:0 (30_encoding.md R57). -/
def responseWord (code : BitVec 8) (data : Imm) : Word := code ++ 0#16 ++ data

/-- Field CODE of a response word. -/
def codeOf (r : Word) : BitVec 8 := r.extractLsb' 56 8

/-- Field DATA of a response word. -/
def dataOf (r : Word) : Imm := r.extractLsb' 0 40

end Sys2Proof.Machine
end

