-- ==== Sys2Proof/Machine/Operands.lean ====
section
/-! DEFINITION. What commands read: the derived quantities (10_state.md R19), sizes of spaces, bits and bytes
(20_memory.md R32, R33), the length prefix, the framed payload, capacity arithmetic. All arithmetic is in the naturals
(00_scope.md R7, 43_capacity.md R100). -/

namespace Sys2Proof.Machine

/-! ### Sizes (00_scope.md R6) -/

/-- PAY_BYTES = CH_MAX − 4, also the largest legal value of LEN. -/
def State.payBytes (s : State) : Nat := s.chMax.toNat - 4

/-- The physical size of a space in bytes (20_memory.md R37). -/
def State.sizeOf (s : State) : Space → Nat
  | .pay => s.payBytes
  | .frm => s.chMax.toNat
  | .ch => s.chMax.toNat

/-! ### Derived quantities (10_state.md R19) -/

/-- 3·W·H for a value of register GRID, W in bits 15:0 and H in bits 31:16. -/
def gridChannels (g : BitVec 32) : Nat := 3 * (g.extractLsb' 0 16).toNat * (g.extractLsb' 16 16).toNat

/-- W, the grid's width in pixels. -/
def State.width (s : State) : Nat := (s.grid.extractLsb' 0 16).toNat

/-- H, the grid's height in pixels. -/
def State.height (s : State) : Nat := (s.grid.extractLsb' 16 16).toNat

/-- NPIX = W·H. -/
def State.npix (s : State) : Nat := s.width * s.height

/-- NCH = 3·W·H, the number of channels of the grid. -/
def State.nch (s : State) : Nat := gridChannels s.grid

/-- T(L) = 8·(L + 4), the number of bits of the framed form of a payload of `l` bytes (43_capacity.md R100). -/
def totalBits (l : Nat) : Nat := 8 * (l + 4)

/-- T = 8·(LEN + 4). -/
def State.total (s : State) : Nat := totalBits s.len.toNat

/-- CAPBITS = K·NCH, the number of storage bits of the grid at the bit width in K. -/
def State.capBits (s : State) : Nat := s.k.toNat * s.nch

/-- The address in CH of colour `c` (0 red, 1 green, 2 blue) of the pixel in column `x` and row `y` of a grid of width
`w` (10_state.md R23). -/
def channelIndex (w x y c : Nat) : Nat := 3 * (y * w + x) + c

/-! ### Capacity (43_capacity.md R100, R101, R104) -/

/-- ceil(a / b) for b > 0 (00_scope.md R7). -/
def ceilDiv (a b : Nat) : Nat := (a + b - 1) / b

/-- MinK(L, N), the smallest bit width at which a payload of `l` bytes fits `n` channels, n ≥ 1. -/
def minK (l n : Nat) : Nat := ceilDiv (totalBits l) n

/-- Cap(k, N), the most payload bytes `n` channels hold at bit width `k`; none where not even the prefix fits. -/
def cap (k n : Nat) : Option Nat := if k * n / 8 < 4 then none else some (k * n / 8 - 4)

/-! ### The length prefix and the framed payload (42_framing.md R90, R91) -/

/-- Byte `n` of BE32(L), the most significant byte first. -/
def be32 (l : BitVec 32) : Nat → Byte
  | 0 => l.extractLsb' 24 8
  | 1 => l.extractLsb' 16 8
  | 2 => l.extractLsb' 8 8
  | _ => l.extractLsb' 0 8

/-- UnBE32: four bytes, the most significant first, as a 32-bit length. -/
def unBe32 (b0 b1 b2 b3 : Byte) : BitVec 32 := b0 ++ b1 ++ b2 ++ b3

/-- Byte `n` of the framed payload of the payload `p` of length `l`, for n < l + 4. -/
def frameByte (l : BitVec 32) (p : Nat → Byte) (n : Nat) : Byte := if n < 4 then be32 l n else p (n - 4)

/-! ### Bits of bytes (41_bitstream.md R80, R81, R84) -/

/-- Bit `i` of a byte, 0 the least significant. -/
def bitOf (v : Byte) (i : Nat) : Bool := v.getLsbD i

/-- The byte with bit `i` set to `b` and its other bits unchanged. -/
def withBit (v : Byte) (i : Nat) (b : Bool) : Byte :=
  (v &&& (~~~(1#8 <<< i) &&& 0xFF#8)) ||| ((BitVec.ofBool b).setWidth 8 <<< i)

/-- Σ over i < n of f i · 2^i. -/
def bitSum (f : Nat → Bool) : Nat → Nat
  | 0 => 0
  | n + 1 => bitSum f n + (f n).toNat * 2 ^ n

/-- The byte whose bit `i` is `f i` (41_bitstream.md R84 law 5). -/
def byteOfBits (f : Nat → Bool) : Byte := BitVec.ofNat 8 (bitSum f 8)

end Sys2Proof.Machine
end

