-- ==== Sys2Proof/Machine/Ops.lean ====
section
/-! DEFINITION. The named operations: reading and writing memories and registers, taking an input, completing a command
with success or with an error (30_encoding.md R57, 60_exceptions.md R130, R134), and the reset event. -/

namespace Sys2Proof.Machine

/-! ### Memories (20_memory.md R30 to R41) -/

/-- What an address of a space reads as until it is written: a free byte (70_reset_and_hazards.md R151; log entry 1). The
free bytes are fixed by space and address alone, so every instance has the same ones: DESIGN CHOICE, unsafe for a claim that
compares the unspecified bytes of two instances (60_exceptions.md R142; log entry 13). -/
def initByte : Space → Nat → Byte
  | .pay => Config.payInit
  | .frm => Config.frmInit
  | .ch => Config.chInit

/-- The listed byte at an address. -/
def Memory.lookup : Memory → Nat → Option Byte
  | [], _ => none
  | (b, v) :: m, a => if b = a then some v else Memory.lookup m a

/-- S[a], the byte at an address. -/
def Memory.read (sp : Space) (m : Memory) (a : Nat) : Byte := (Memory.lookup m a).getD (initByte sp a)

/-- The memory without the address. -/
def Memory.erase (m : Memory) (a : Nat) : Memory := m.filter fun c => c.1 != a

/-- The memory with the pair in the place the order gives it. -/
def Memory.insert : Memory → Nat → Byte → Memory
  | [], a, v => [(a, v)]
  | (b, w) :: m, a, v =>
    if a < b then (a, v) :: (b, w) :: m
    else if a = b then (a, v) :: m
    else (b, w) :: Memory.insert m a v

/-- S[a] <- v. Writing what an unlisted address reads as unlists the address. -/
def Memory.write (sp : Space) (m : Memory) (a : Nat) (v : Byte) : Memory :=
  if v = initByte sp a then Memory.erase m a else Memory.insert m a v

/-- `for i in 0..n-1: S[base + i] <- f i`. -/
def Memory.fill (sp : Space) (f : Nat → Byte) (base : Nat) : Nat → Memory → Memory
  | 0, m => m
  | n + 1, m => Memory.write sp (Memory.fill sp f base n m) (base + n) (f n)

/-- BitGet(S, j) (41_bitstream.md R80). -/
def Memory.getBit (sp : Space) (m : Memory) (j : Nat) : Bool := bitOf (Memory.read sp m (j / 8)) (j % 8)

/-- BitSet(S, j, b) (41_bitstream.md R81). -/
def Memory.setBit (sp : Space) (m : Memory) (j : Nat) (b : Bool) : Memory :=
  Memory.write sp m (j / 8) (withBit (Memory.read sp m (j / 8)) (j % 8) b)

/-- The canonical form: addresses strictly rising, no pair equal to what an unlisted address reads as. -/
abbrev Memory.wf (sp : Space) (m : Memory) : Prop :=
  List.Pairwise (fun x y : Host.Cell => x.1 < y.1) m ∧ ∀ c ∈ m, c.2 ≠ initByte sp c.1

/-- Every listed address is below `n`. -/
abbrev Memory.within (n : Nat) (m : Memory) : Prop := ∀ c ∈ m, c.1 < n

/-- The memory of a space. -/
def State.mem (s : State) : Space → Memory
  | .pay => s.pay
  | .frm => s.frm
  | .ch => s.ch

/-- The state with another memory for a space. -/
def State.setMem (s : State) (sp : Space) (m : Memory) : State :=
  match sp with
  | .pay => { s with pay := m }
  | .frm => { s with frm := m }
  | .ch => { s with ch := m }

/-- The byte at address `a` of a space. -/
def State.readByte (s : State) (sp : Space) (a : Nat) : Byte := Memory.read sp (s.mem sp) a

/-- The state with `v` at address `a` of a space. -/
def State.writeByte (s : State) (sp : Space) (a : Nat) (v : Byte) : State :=
  s.setMem sp (Memory.write sp (s.mem sp) a v)

/-- The bit with index `j` of a space. -/
def State.getBit (s : State) (sp : Space) (j : Nat) : Bool := Memory.getBit sp (s.mem sp) j

/-- The state with the bit with index `j` of a space set to `b`. -/
def State.setBit (s : State) (sp : Space) (j : Nat) (b : Bool) : State :=
  s.setMem sp (Memory.setBit sp (s.mem sp) j b)

/-! ### Registers (10_state.md R10, R14 to R18) -/

/-- The value of a register, zero-extended to 40 bits (40_host_access.md R71). -/
def State.readReg (s : State) : Reg → Imm
  | .k => s.k.setWidth 40
  | .len => s.len.setWidth 40
  | .grid => s.grid.setWidth 40
  | .esticky => s.esticky.setWidth 40
  | .chmax => s.chMax

/-! ### The ports (70_reset_and_hazards.md R161) -/

/-- The state with the oldest pending input taken, `rest` being the others. -/
def State.takeInput (s : State) (rest : List HostInput) : State := { s with inputs := rest }

/-! ### Completing a command -/

/-- Return a response and go on to the next command: one response for each command, in order, and the command index
advances by 1 whether the command succeeded or failed (30_encoding.md R57, 10_state.md R12). -/
def State.complete (s : State) (code : BitVec 8) (data : Imm) : State :=
  { s with responses := s.responses ++ [responseWord code data], cc := s.cc + 1 }

/-- `respond OK(d)` (00_scope.md section 6). -/
def State.respondOk (s : State) (data : Imm) : State := s.complete 0 data

/-- `raise <Error>`: ESTICKY takes the bit of the error, the response carries the error's code and DATA 0, and nothing
else changes (60_exceptions.md R130, R134). It is the block's only exceptional path; there is no return from it (R136). -/
def State.raise (s : State) (e : ErrCode) : State :=
  ({ s with esticky := stickySet s.esticky e }).complete e.code 0

/-! ### The reset event (70_reset_and_hazards.md R150) -/

/-- K <- 1, LEN <- 0, GRID <- 0, ESTICKY <- 0, the command index restarts; the memories are not written. -/
def State.applyReset (s : State) : State := { s with k := 1, len := 0, grid := 0, esticky := 0, cc := 0 }

/-- A range of `n` bytes of a space takes unspecified values: the next `n` free bytes (log entry 6). Every instance reads the
one sequence `Config.freeByte` with its own counter, so that two instances may provably take the same bytes: DESIGN CHOICE,
unsafe for a claim that compares the unspecified bytes of two instances (60_exceptions.md R142; log entry 13). -/
def State.scramble (s : State) (sp : Space) (base n : Nat) : State :=
  { s.setMem sp (Memory.fill sp (fun i => Config.freeByte (s.freeNext + i)) base n (s.mem sp)) with
    freeNext := s.freeNext + n }

end Sys2Proof.Machine
end

