-- ==== Sys2Proof/Machine/Framing.lean ====
section
/-! DEFINITION. The framing command FRAME (42_framing.md R92), whose serialiser EMBED uses as its first step. -/

namespace Sys2Proof.Machine

open Host (Outcome)

/-- FRM[0..3] <- BE32(LEN); FRM[4 + i] <- PAY[i] for i < LEN (42_framing.md R92). -/
def State.buildFrame (s : State) : State :=
  { s with
    frm := Memory.fill .frm (s.readByte .pay) 4 s.len.toNat (Memory.fill .frm (be32 s.len) 0 4 s.frm) }

/-- FRAME: build the frame, respond with its length LEN + 4; it cannot fail (42_framing.md R92). -/
def execFrame (s : State) : Outcome State Fault Refusal :=
  .next (s.buildFrame.respondOk (BitVec.ofNat 40 (s.len.toNat + 4)))

end Sys2Proof.Machine
end

