-- ==== Sys2Proof/Machine/LsbCodec.lean ====
section
/-! DEFINITION. The LSB codec, commands EMBED and EXTRACT (44_lsbcodec.md R110 to R117). -/

namespace Sys2Proof.Machine

open Host (Outcome)

/-! ### Packing (44_lsbcodec.md R111, R112, R114) -/

/-- The first `n` turns of EMBED's loop: stream bit j goes to channel j div k, position j mod k. -/
def packBits (k : Nat) (frm : Memory) : Nat → Memory → Memory
  | 0, ch => ch
  | j + 1, ch =>
    let ch' := packBits k frm j ch
    Memory.write .ch ch' (j / k) (withBit (Memory.read .ch ch' (j / k)) (j % k) (Memory.getBit .frm frm j))

/-- EMBED's writes: build the frame, then pack its T bits into the channels. -/
def State.packFrame (s : State) : State :=
  { s.buildFrame with ch := packBits s.k.toNat s.buildFrame.frm s.total s.ch }

/-- EMBED: all checks, then the writes; respond with the number of channels written (44_lsbcodec.md R114). -/
def execEmbed (s : State) : Outcome State Fault Refusal :=
  if s.nch = 0 then .next (s.raise .degenerateInput)
  else if s.capBits < s.total then .next (s.raise .capacityExceeded)
  else .next (s.packFrame.respondOk (BitVec.ofNat 40 (ceilDiv s.total s.k.toNat)))

/-! ### Unpacking (44_lsbcodec.md R115, R116) -/

/-- StreamBit(CH, K, j). -/
def streamBit (ch : Memory) (k j : Nat) : Bool := bitOf (Memory.read .ch ch (j / k)) (j % k)

/-- StreamByte(CH, K, n). -/
def streamByte (ch : Memory) (k n : Nat) : Byte := byteOfBits fun i => streamBit ch k (8 * n + i)

/-- The declared length: the first four stream bytes, big-endian. -/
def State.declaredLen (s : State) : BitVec 32 :=
  unBe32 (streamByte s.ch s.k.toNat 0) (streamByte s.ch s.k.toNat 1) (streamByte s.ch s.k.toNat 2)
    (streamByte s.ch s.k.toNat 3)

/-- FRM[n] <- StreamByte(CH, K, n) for n < L + 4, L the declared length. -/
def State.unpackFrame (s : State) : State :=
  { s with frm := Memory.fill .frm (streamByte s.ch s.k.toNat) 0 (s.declaredLen.toNat + 4) s.frm }

/-- EXTRACT's writes: the frame, then PAY[n] <- FRM[4 + n] for n < L, then LEN <- L. -/
def State.unpackPayload (s : State) : State :=
  { s.unpackFrame with
    pay := Memory.fill .pay (fun n => s.unpackFrame.readByte .frm (4 + n)) 0 s.declaredLen.toNat s.pay
    len := s.declaredLen }

/-- EXTRACT: all checks, then the writes; respond with the declared length (44_lsbcodec.md R116). -/
def execExtract (s : State) : Outcome State Fault Refusal :=
  if s.nch = 0 then .next (s.raise .degenerateInput)
  else if s.capBits < 32 then .next (s.raise .truncatedStream)
  else if s.capBits < totalBits s.declaredLen.toNat then .next (s.raise .lengthOverflow)
  else .next (s.unpackPayload.respondOk (s.declaredLen.setWidth 40))

end Sys2Proof.Machine
end

