-- ==== Sys2Proof/Machine/Abandon.lean ====
section
/-! DEFINITION. A reset that arrives during a command (70_reset_and_hazards.md R150, 93_implementation_defined.md U7): the
command is abandoned and the memories it was writing are unspecified in the ranges it could have written. -/

namespace Sys2Proof.Machine

/-- A range of a space: `n` bytes from address `base`. -/
structure ByteRange where
  /-- The space. -/
  space : Space
  /-- The first address. -/
  base : Nat
  /-- How many bytes. -/
  n : Nat
  deriving DecidableEq, Repr

/-- The ranges of memory a command writes in a state: none where a check of the command fails (60_exceptions.md R135;
the ranges of 20_memory.md R30). -/
def State.writeRanges (s : State) : Instr → List ByteRange
  | .nop => []
  | .rreg _ => []
  | .wreg _ _ => []
  | .rbyte _ _ => []
  | .wbyte sp _ a => if s.sizeOf sp ≤ a.toNat then [] else [⟨sp, a.toNat, 1⟩]
  | .getbit _ _ => []
  | .setbit sp _ j => if 8 * s.sizeOf sp ≤ j.toNat then [] else [⟨sp, j.toNat / 8, 1⟩]
  | .frame => [⟨.frm, 0, s.len.toNat + 4⟩]
  | .plan => []
  | .embed =>
    if s.nch = 0 ∨ s.capBits < s.total then []
    else [⟨.frm, 0, s.len.toNat + 4⟩, ⟨.ch, 0, ceilDiv s.total s.k.toNat⟩]
  | .extract =>
    if s.nch = 0 ∨ s.capBits < 32 ∨ s.capBits < totalBits s.declaredLen.toNat then []
    else [⟨.frm, 0, s.declaredLen.toNat + 4⟩, ⟨.pay, 0, s.declaredLen.toNat⟩]

/-- Every range takes unspecified bytes. -/
def State.scrambleAll (s : State) : List ByteRange → State
  | [] => s
  | r :: rs => State.scrambleAll (s.scramble r.space r.base r.n) rs

/-- Abandon the command word `w`: the ranges it could have written become unspecified, the registers take their reset
values, and no response is returned (log entry 6). An illegal word could have written nothing. -/
def State.abandon (s : State) (w : Word) : State :=
  match decode w with
  | .ok i => (s.scrambleAll (s.writeRanges i)).applyReset
  | .error _ => s.applyReset

end Sys2Proof.Machine
end

