-- ==== Sys2Proof/Machine/BitStream.lean ====
section
/-! DEFINITION. The bit commands GETBIT and SETBIT (41_bitstream.md R82, R83). -/

namespace Sys2Proof.Machine

open Host (Outcome)

/-- GETBIT: the bit with an index below 8 times the physical size of the space (41_bitstream.md R82). -/
def execGetbit (sp : Space) (j : Imm) (s : State) : Outcome State Fault Refusal :=
  if 8 * s.sizeOf sp ≤ j.toNat then .next (s.raise .addrRange)
  else .next (s.respondOk ((BitVec.ofBool (s.getBit sp j.toNat)).setWidth 40))

/-- SETBIT: set the bit with an index below 8 times the physical size of the space (41_bitstream.md R83). -/
def execSetbit (sp : Space) (b : Bool) (j : Imm) (s : State) : Outcome State Fault Refusal :=
  if 8 * s.sizeOf sp ≤ j.toNat then .next (s.raise .addrRange)
  else .next ((s.setBit sp j.toNat b).respondOk 0)

end Sys2Proof.Machine
end

