-- ==== Sys2Proof/Machine/Capacity.lean ====
section
/-! DEFINITION. The capacity planner, command PLAN (43_capacity.md R102). -/

namespace Sys2Proof.Machine

open Host (Outcome)

/-- PLAN: the smallest sufficient bit width, by the ceiling formula, into K (43_capacity.md R102, 90_conflicts.md C1). -/
def execPlan (s : State) : Outcome State Fault Refusal :=
  if s.nch = 0 then .next (s.raise .degenerateInput)
  else if 8 < minK s.len.toNat s.nch then .next (s.raise .insufficientCapacity)
  else .next (({ s with k := BitVec.ofNat 4 (minK s.len.toNat s.nch) }).respondOk
    (BitVec.ofNat 40 (minK s.len.toNat s.nch)))

end Sys2Proof.Machine
end

