-- ==== Sys2Proof/Machine/HostAccess.lean ====
section
/-! DEFINITION. The host access commands NOP, RREG, WREG, RBYTE, WBYTE (40_host_access.md R70 to R74), and the completion
of an illegal word (30_encoding.md R56). -/

namespace Sys2Proof.Machine

open Host (Outcome)

/-- NOP: respond OK(0) (40_host_access.md R70). -/
def execNop (s : State) : Outcome State Fault Refusal := .next (s.respondOk 0)

/-- RREG: respond with the register, zero-extended; reading ESTICKY does not clear it (40_host_access.md R71). -/
def execRreg (n : Reg) (s : State) : Outcome State Fault Refusal := .next (s.respondOk (s.readReg n))

/-- WREG K: legal values 1 to 8. -/
def State.writeK (s : State) (v : Imm) : State :=
  if v.toNat < 1 ∨ 8 < v.toNat then s.raise .badParam
  else ({ s with k := v.setWidth 4 }).respondOk 0

/-- WREG LEN: legal values 0 to PAY_BYTES. -/
def State.writeLen (s : State) (v : Imm) : State :=
  if s.payBytes < v.toNat then s.raise .badParam
  else ({ s with len := v.setWidth 32 }).respondOk 0

/-- WREG GRID: a value of 32 bits whose grid fits CH. -/
def State.writeGrid (s : State) (v : Imm) : State :=
  if 2 ^ 32 ≤ v.toNat then s.raise .badParam
  else if s.chMax.toNat < gridChannels (v.setWidth 32) then s.raise .badParam
  else ({ s with grid := v.setWidth 32 }).respondOk 0

/-- WREG: check the value, then write the register; a value too wide is refused, not truncated (40_host_access.md R72). A
read-only register makes the command illegal (30_encoding.md R56 item 4; log entry 9). -/
def execWreg (n : Reg) (v : Imm) (s : State) : Outcome State Fault Refusal :=
  match n with
  | .k => .next (s.writeK v)
  | .len => .next (s.writeLen v)
  | .grid => .next (s.writeGrid v)
  | .esticky => .next (s.raise .illegalCommand)
  | .chmax => .next (s.raise .illegalCommand)

/-- RBYTE: the byte at an address below the physical size of the space (40_host_access.md R73). -/
def execRbyte (sp : Space) (a : Imm) (s : State) : Outcome State Fault Refusal :=
  if s.sizeOf sp ≤ a.toNat then .next (s.raise .addrRange)
  else .next (s.respondOk ((s.readByte sp a.toNat).setWidth 40))

/-- WBYTE: write the byte at an address below the physical size of the space (40_host_access.md R74). -/
def execWbyte (sp : Space) (d : Byte) (a : Imm) (s : State) : Outcome State Fault Refusal :=
  if s.sizeOf sp ≤ a.toNat then .next (s.raise .addrRange)
  else .next ((s.writeByte sp a.toNat d).respondOk 0)

/-- A word that is no legal command completes with IllegalCommand, whatever makes it illegal (30_encoding.md R56, R61). -/
def execIllegal (_why : Illegal) (s : State) : Outcome State Fault Refusal := .next (s.raise .illegalCommand)

end Sys2Proof.Machine
end

