-- ==== Sys2Proof/Machine/Dispatch.lean ====
section
/-! DEFINITION. The dispatch: one arm for each command, one direct call of its meaning. -/

namespace Sys2Proof.Machine

def exec (i : Instr) (s : State) : Host.Outcome State Fault Refusal :=
  match i with
  | .nop => Sys2Proof.Machine.execNop s
  | .rreg n => Sys2Proof.Machine.execRreg n s
  | .wreg n v => Sys2Proof.Machine.execWreg n v s
  | .rbyte sp a => Sys2Proof.Machine.execRbyte sp a s
  | .wbyte sp d a => Sys2Proof.Machine.execWbyte sp d a s
  | .getbit sp j => Sys2Proof.Machine.execGetbit sp j s
  | .setbit sp b j => Sys2Proof.Machine.execSetbit sp b j s
  | .frame => Sys2Proof.Machine.execFrame s
  | .plan => Sys2Proof.Machine.execPlan s
  | .embed => Sys2Proof.Machine.execEmbed s
  | .extract => Sys2Proof.Machine.execExtract s

end Sys2Proof.Machine
end

