-- ==== Sys2Proof/Machine/Step.lean ====
section
/-! DEFINITION. One step: the block takes the oldest pending input and executes it completely (00_scope.md R9,
20_memory.md R36, R38). -/

namespace Sys2Proof.Machine

/-- One step. With nothing pending the block holds its state (60_exceptions.md R140; log entry 4); a command word is
decoded and executed, an illegal one completes with IllegalCommand (30_encoding.md R56); a reset event resets
(70_reset_and_hazards.md R150). -/
def step (s : State) : Host.Outcome State Fault Refusal :=
  match s.inputs with
  | [] => .next s
  | .command w :: rest =>
    match decode w with
    | .ok i => exec i (s.takeInput rest)
    | .error why => execIllegal why (s.takeInput rest)
  | .reset :: rest => .next (s.takeInput rest).applyReset
  | .resetDuring w :: rest => .next ((s.takeInput rest).abandon w)

/-- The state with a command word, numbered as spec/opcode_table.json numbers it, at the head of the command port, so
that the next step takes it (log entry 3). -/
def State.withFetchWord (s : State) (nbits w : Nat) : State :=
  { s with inputs := .command (tableWord nbits w) :: s.inputs }

end Sys2Proof.Machine
end

