-- ==== Sys2Proof/Machine/Assembler.lean ====
section
/-! DEFINITION. The assembler of 30_encoding.md R59 and the pseudo-instructions of R60: how a host writes programs. The
block sees only the words. -/

namespace Sys2Proof.Machine

/-- One line of a program, its operands as numbers in the order the line writes them. -/
inductive AsmLine where
  | nop
  | rreg (reg : Nat)
  | wreg (reg value : Nat)
  | rbyte (space addr : Nat)
  | wbyte (space addr byte : Nat)
  | getbit (space index : Nat)
  | setbit (space index bit : Nat)
  | frame
  | plan
  | embed
  | extract
  /-- `SETGRID w, h`. -/
  | setgrid (w h : Nat)
  /-- `LDPAY b0, b1, ...`. -/
  | ldpay (bytes : List Nat)
  /-- `LDCH a, b0, b1, ...`. -/
  | ldch (addr : Nat) (bytes : List Nat)
  /-- `FILLCH a, n, v`. -/
  | fillch (addr n v : Nat)
  deriving DecidableEq, Repr

/-- The word with the given fields; none where a value does not fit its field, so that nothing is truncated. -/
def asmWord (o : Opcode) (a b imm : Nat) : Option Word :=
  if a < 2 ^ 8 ∧ b < 2 ^ 8 ∧ imm < 2 ^ 40 then
    some (makeWord o.toByte (BitVec.ofNat 8 a) (BitVec.ofNat 8 b) (BitVec.ofNat 40 imm))
  else none

/-- `WBYTE space, addr, b0`; `WBYTE space, addr+1, b1`; ... -/
def asmBytes (space addr : Nat) : List Nat → Option (List Word)
  | [] => some []
  | b :: bs => do
    let w ← asmWord .wbyte space b addr
    let ws ← asmBytes space (addr + 1) bs
    return w :: ws

/-- The words of a line: one for a command, the fixed expansion for a pseudo-instruction. -/
def assemble : AsmLine → Option (List Word)
  | .nop => do return [← asmWord .nop 0 0 0]
  | .rreg reg => do return [← asmWord .rreg reg 0 0]
  | .wreg reg value => do return [← asmWord .wreg reg 0 value]
  | .rbyte space addr => do return [← asmWord .rbyte space 0 addr]
  | .wbyte space addr byte => do return [← asmWord .wbyte space byte addr]
  | .getbit space index => do return [← asmWord .getbit space 0 index]
  | .setbit space index bit => do return [← asmWord .setbit space bit index]
  | .frame => do return [← asmWord .frame 0 0 0]
  | .plan => do return [← asmWord .plan 0 0 0]
  | .embed => do return [← asmWord .embed 0 0 0]
  | .extract => do return [← asmWord .extract 0 0 0]
  | .setgrid w h => do return [← asmWord .wreg 2 0 (h * 65536 + w)]
  | .ldpay bytes => do
    let ws ← asmBytes 0 0 bytes
    let w ← asmWord .wreg 1 0 bytes.length
    return ws ++ [w]
  | .ldch addr bytes => asmBytes 2 addr bytes
  | .fillch addr n v => asmBytes 2 addr (List.replicate n v)

/-- The line that writes a command (the table of 30_encoding.md R59). -/
def lineOf : Instr → AsmLine
  | .nop => .nop
  | .rreg n => .rreg n.toByte.toNat
  | .wreg n v => .wreg n.toByte.toNat v.toNat
  | .rbyte sp a => .rbyte sp.toByte.toNat a.toNat
  | .wbyte sp d a => .wbyte sp.toByte.toNat a.toNat d.toNat
  | .getbit sp j => .getbit sp.toByte.toNat j.toNat
  | .setbit sp b j => .setbit sp.toByte.toNat j.toNat b.toNat
  | .frame => .frame
  | .plan => .plan
  | .embed => .embed
  | .extract => .extract

/-! ### Reading a line of text (30_encoding.md R59; log entry 14) -/

/-- A space or a tab. -/
def isBlank (c : Char) : Bool := c = ' ' || c = '\t'

/-- The text without blanks at its two ends. -/
def trimBlanks (cs : List Char) : List Char :=
  ((cs.dropWhile isBlank).reverse.dropWhile isBlank).reverse

/-- The text cut at its commas. -/
def splitCommas : List Char → List (List Char)
  | [] => [[]]
  | c :: cs =>
    if c = ',' then [] :: splitCommas cs
    else
      match splitCommas cs with
      | [] => [[c]]
      | p :: ps => (c :: p) :: ps

/-- The value of a digit: its place among the sixteen digits, in either case (log entry 14). -/
def digitVal (c : Char) : Option Nat :=
  ("0123456789ABCDEF".toList.idxOf? c).or ("0123456789abcdef".toList.idxOf? c)

/-- The number with the digits `cs` in a base, after the value `acc` of the digits already read. -/
def readDigits (base acc : Nat) : List Char → Option Nat
  | [] => some acc
  | c :: cs =>
    match digitVal c with
    | none => none
    | some d => if d < base then readDigits base (acc * base + d) cs else none

/-- A number, decimal or `0x` hexadecimal. -/
def readNumber : List Char → Option Nat
  | '0' :: 'x' :: c :: cs => readDigits 16 0 (c :: cs)
  | c :: cs => readDigits 10 0 (c :: cs)
  | [] => none

/-- A register: a name or a number. -/
def readRegister (cs : List Char) : Option Nat :=
  if cs = ['K'] then some 0
  else if cs = ['L', 'E', 'N'] then some 1
  else if cs = ['G', 'R', 'I', 'D'] then some 2
  else if cs = ['E', 'S', 'T', 'I', 'C', 'K', 'Y'] then some 3
  else if cs = ['C', 'H', 'M', 'A', 'X'] then some 4
  else readNumber cs

/-- A space: a name or a number. -/
def readSpace (cs : List Char) : Option Nat :=
  if cs = ['P', 'A', 'Y'] then some 0
  else if cs = ['F', 'R', 'M'] then some 1
  else if cs = ['C', 'H'] then some 2
  else readNumber cs

/-- The line a mnemonic and its operands stand for. -/
def readCommand (mnemonic : List Char) (ops : List (List Char)) : Option AsmLine :=
  if mnemonic = ['N', 'O', 'P'] then
    match ops with
    | [] => some .nop
    | _ => none
  else if mnemonic = ['R', 'R', 'E', 'G'] then
    match ops with
    | [r] => do return .rreg (← readRegister r)
    | _ => none
  else if mnemonic = ['W', 'R', 'E', 'G'] then
    match ops with
    | [r, v] => do return .wreg (← readRegister r) (← readNumber v)
    | _ => none
  else if mnemonic = ['R', 'B', 'Y', 'T', 'E'] then
    match ops with
    | [sp, a] => do return .rbyte (← readSpace sp) (← readNumber a)
    | _ => none
  else if mnemonic = ['W', 'B', 'Y', 'T', 'E'] then
    match ops with
    | [sp, a, b] => do return .wbyte (← readSpace sp) (← readNumber a) (← readNumber b)
    | _ => none
  else if mnemonic = ['G', 'E', 'T', 'B', 'I', 'T'] then
    match ops with
    | [sp, j] => do return .getbit (← readSpace sp) (← readNumber j)
    | _ => none
  else if mnemonic = ['S', 'E', 'T', 'B', 'I', 'T'] then
    match ops with
    | [sp, j, b] => do return .setbit (← readSpace sp) (← readNumber j) (← readNumber b)
    | _ => none
  else if mnemonic = ['F', 'R', 'A', 'M', 'E'] then
    match ops with
    | [] => some .frame
    | _ => none
  else if mnemonic = ['P', 'L', 'A', 'N'] then
    match ops with
    | [] => some .plan
    | _ => none
  else if mnemonic = ['E', 'M', 'B', 'E', 'D'] then
    match ops with
    | [] => some .embed
    | _ => none
  else if mnemonic = ['E', 'X', 'T', 'R', 'A', 'C', 'T'] then
    match ops with
    | [] => some .extract
    | _ => none
  else if mnemonic = ['S', 'E', 'T', 'G', 'R', 'I', 'D'] then
    match ops with
    | [w, h] => do return .setgrid (← readNumber w) (← readNumber h)
    | _ => none
  else if mnemonic = ['L', 'D', 'P', 'A', 'Y'] then do
    return .ldpay (← ops.mapM readNumber)
  else if mnemonic = ['L', 'D', 'C', 'H'] then
    match ops with
    | a :: bs => do return .ldch (← readNumber a) (← bs.mapM readNumber)
    | [] => none
  else if mnemonic = ['F', 'I', 'L', 'L', 'C', 'H'] then
    match ops with
    | [a, n, v] => do return .fillch (← readNumber a) (← readNumber n) (← readNumber v)
    | _ => none
  else none

/-- The lines a line of text holds: none of them for a blank or comment line, one for a command; `none` where it is no
line of the assembler. A `;` starts a comment, operands stand between commas. -/
def readLine (text : List Char) : Option (List AsmLine) :=
  let code := trimBlanks (text.takeWhile (· ≠ ';'))
  if code = [] then some []
  else
    let mnemonic := code.takeWhile fun c => !isBlank c
    let rest := trimBlanks (code.dropWhile fun c => !isBlank c)
    let ops := if rest = [] then [] else (splitCommas rest).map trimBlanks
    do return [← readCommand mnemonic ops]

end Sys2Proof.Machine
end

