-- ==== Sys2Proof/Machine/Product.lean ====
section
/-! DEFINITION. Several blocks: a model of n instances is the product of n models, sharing nothing (60_exceptions.md R142). -/

namespace Sys2Proof.Machine

/-- Instance `n` takes one step; the others hold their state. A number that names no instance moves nothing. DESIGN CHOICE:
the spec leaves open whether the unspecified bytes of two instances are independent; here all instances draw them from the
same opaque constants (`initByte`, `Config.freeByte`), so that from State.reset two instances provably agree on them, which
is unsafe for a claim that compares unspecified bytes of two instances (log entries 1, 6 and 13). -/
def stepInstance (n : Nat) (ss : List State) : Host.Outcome (List State) Fault Refusal :=
  match ss[n]? with
  | none => .next ss
  | some s =>
    match step s with
    | .next t => .next (ss.set n t)
    | .fault r => .fault r
    | .refused r => .refused r

end Sys2Proof.Machine
end

