-- ==== Sys2Proof/Safety.lean ====
section
/-! DEFINITION. The terms the claims use: the invariant of 10_state.md R25, what it is for a command to have answered, the
causes of errors in their order (60_exceptions.md R131 to R133), and what a command may write. -/

namespace Sys2Proof.Machine

/-! ### The invariant (10_state.md R25) -/

/-- The registers hold legal values: 10_state.md R25 items 1 to 4, and CH_MAX in its range (00_scope.md R6). -/
abbrev State.Legal (s : State) : Prop :=
  (12 ≤ s.chMax.toNat ∧ s.chMax.toNat ≤ 4294967299) ∧
  (1 ≤ s.k.toNat ∧ s.k.toNat ≤ 8) ∧
  s.len.toNat ≤ s.payBytes ∧
  s.nch ≤ s.chMax.toNat ∧
  ∀ i < 16, (i = 0 ∨ 9 ≤ i) → s.esticky.getLsbD i = false

/-- A memory in canonical form whose listed addresses exist. -/
abbrev State.MemOk (s : State) (sp : Space) : Prop :=
  Memory.wf sp (s.mem sp) ∧ Memory.within (s.sizeOf sp) (s.mem sp)

/-- The invariant of every reachable state. -/
abbrev State.Inv (s : State) : Prop :=
  s.Legal ∧ s.MemOk .pay ∧ s.MemOk .frm ∧ s.MemOk .ch

/-- A response word has a code from 0 to 8, zero in bits 55:40, and DATA 0 with every error (30_encoding.md R57). -/
abbrev WellFormedResponse (r : Word) : Prop :=
  (codeOf r).toNat ≤ 8 ∧ r.extractLsb' 40 16 = 0 ∧ (codeOf r ≠ 0 → dataOf r = 0)

/-- The responses returned since the last reset: one for each command the index counts. -/
def State.sinceReset (s : State) : List Word := s.responses.drop (s.responses.length - s.cc)

/-- ESTICKY is the record of the errors since the last reset: bit c, for c in 1 to 8, is 1 if and only if some command
since the last reset has completed with code c, and every other bit is 0 (10_state.md R17). -/
def State.StickyLog (s : State) : Prop :=
  s.cc ≤ s.responses.length ∧
  ∀ c < 16, s.esticky.getLsbD c = true ↔ (1 ≤ c ∧ c ≤ 8 ∧ ∃ r ∈ s.sinceReset, (codeOf r).toNat = c)

/-! ### What a command answers and keeps -/

/-- The command has returned this one response and the index has advanced by 1. -/
def Responded (s t : State) (code : BitVec 8) (data : Nat) : Prop :=
  t.responses = s.responses ++ [responseWord code (BitVec.ofNat 40 data)] ∧ t.cc = s.cc + 1

/-- Nothing but the response port and the command index may differ outside the registers and memories. -/
def SameElsewhere (s t : State) : Prop := t.inputs = s.inputs ∧ t.freeNext = s.freeNext

/-- The five registers are unchanged. -/
def SameRegisters (s t : State) : Prop :=
  t.k = s.k ∧ t.len = s.len ∧ t.grid = s.grid ∧ t.esticky = s.esticky ∧ t.chMax = s.chMax

/-- Every byte of every space is unchanged. -/
def SameBytes (s t : State) : Prop := ∀ sp a, t.readByte sp a = s.readByte sp a

/-- Every byte of one space is unchanged. -/
def SameBytesOf (sp : Space) (s t : State) : Prop := ∀ a, t.readByte sp a = s.readByte sp a

/-- The state a command leaves when it completes with an error: the error's bit of ESTICKY set, the error's code and DATA 0
returned, nothing else changed (60_exceptions.md R134). -/
def Failed (s : State) (e : ErrCode) : State :=
  { s with
    esticky := s.esticky ||| (1#16 <<< e.code.toNat)
    responses := s.responses ++ [responseWord e.code 0]
    cc := s.cc + 1 }

/-! ### Causes of errors, in the order of 60_exceptions.md R133 -/

/-- The value is legal for the register (10_state.md R14 to R16, 40_host_access.md R72). -/
def State.legalValue (s : State) (n : Reg) (v : Imm) : Bool :=
  match n with
  | .k => 1 ≤ v.toNat && v.toNat ≤ 8
  | .len => v.toNat ≤ s.chMax.toNat - 4
  | .grid => v.toNat < 2 ^ 32 && 3 * (v.toNat % 65536) * (v.toNat / 65536) ≤ s.chMax.toNat
  | .esticky => false
  | .chmax => false

/-- The causes of a command's own errors, the first to be reported first (60_exceptions.md R131, R133 items 2 to 4). -/
def State.causes (s : State) : Instr → List (ErrCode × Bool)
  | .nop => []
  | .rreg _ => []
  | .wreg n v => [(.badParam, !s.legalValue n v)]
  | .rbyte sp a => [(.addrRange, decide (s.sizeOf sp ≤ a.toNat))]
  | .wbyte sp _ a => [(.addrRange, decide (s.sizeOf sp ≤ a.toNat))]
  | .getbit sp j => [(.addrRange, decide (8 * s.sizeOf sp ≤ j.toNat))]
  | .setbit sp _ j => [(.addrRange, decide (8 * s.sizeOf sp ≤ j.toNat))]
  | .frame => []
  | .plan => [(.degenerateInput, s.nch == 0), (.insufficientCapacity, decide (8 < minK s.len.toNat s.nch))]
  | .embed => [(.degenerateInput, s.nch == 0), (.capacityExceeded, decide (s.capBits < s.total))]
  | .extract =>
    [(.degenerateInput, s.nch == 0), (.truncatedStream, decide (s.capBits < 32)),
      (.lengthOverflow, decide (s.capBits < 8 * (s.declaredLen.toNat + 4)))]

/-- The causes of the errors of a command word, IllegalCommand before all others (60_exceptions.md R133). -/
def State.wordCauses (s : State) (w : Word) : List (ErrCode × Bool) :=
  match decode w with
  | .error _ => [(.illegalCommand, true)]
  | .ok i => s.causes i

/-- The first cause that holds. -/
def firstCause : List (ErrCode × Bool) → Option ErrCode
  | [] => none
  | (e, b) :: cs => if b then some e else firstCause cs

/-- The completion codes a command word with a given OPC can return (60_exceptions.md R132). -/
def codesOf (opc : Byte) : List Nat :=
  match Opcode.ofByte opc with
  | none => [8]
  | some .nop => [0, 8]
  | some .rreg => [0, 8]
  | some .wreg => [0, 6, 8]
  | some .rbyte => [0, 7, 8]
  | some .wbyte => [0, 7, 8]
  | some .getbit => [0, 7, 8]
  | some .setbit => [0, 7, 8]
  | some .frame => [0, 8]
  | some .plan => [0, 1, 5, 8]
  | some .embed => [0, 2, 5, 8]
  | some .extract => [0, 3, 4, 5, 8]

/-! ### Ranges and runs -/

/-- The address lies in the range. -/
def ByteRange.has (r : ByteRange) (sp : Space) (a : Nat) : Prop := r.space = sp ∧ r.base ≤ a ∧ a < r.base + r.n

/-- The state with the command words `ws` waiting, and nothing else, at the command port (10_state.md R12). -/
def State.load (s : State) (ws : List Word) : State := { s with inputs := ws.map .command }

end Sys2Proof.Machine
end

