-- ==== Sys2Proof/Certificates/Slice0/Obligations.lean ====
section
/-! DEFINITION. The statements about the model, each from the rules of spec/ its docstring names. -/

open Sys2Proof Sys2Proof.Machine

/-! ### Encoding (30_encoding.md) -/

/-- R50: a command word is OPC·2^56 + A·2^48 + B·2^40 + IMM, its fields are bits 63:56, 55:48, 47:40 and 39:0, and a word
is made of its fields. -/
def Obligations.CommandWordFields : Prop :=
  (∀ (o a b : Byte) (m : Imm),
    (makeWord o a b m).toNat = o.toNat * 2 ^ 56 + a.toNat * 2 ^ 48 + b.toNat * 2 ^ 40 + m.toNat ∧
    opcOf (makeWord o a b m) = o ∧ aOf (makeWord o a b m) = a ∧ bOf (makeWord o a b m) = b ∧
    immOf (makeWord o a b m) = m) ∧
  ∀ w : Word,
    makeWord (opcOf w) (aOf w) (bOf w) (immOf w) = w ∧
    (opcOf w).toNat = w.toNat / 2 ^ 56 ∧ (aOf w).toNat = w.toNat / 2 ^ 48 % 2 ^ 8 ∧
    (bOf w).toNat = w.toNat / 2 ^ 40 % 2 ^ 8 ∧ (immOf w).toNat = w.toNat % 2 ^ 40

/-- R52: a word selects a row of the opcode table (match, mask and field constraint) exactly when it decodes to a command of
that row, and a word whose OPC is in no row is illegal. -/
def Obligations.OpcodeTableSelectsTheCommand : Prop :=
  ∀ w : Word,
    (∀ r ∈ opcodeTable, r.selects w = true ↔ ∃ i, decode w = .ok i ∧ i.opcode = r.opcode) ∧
    ((∀ r ∈ opcodeTable, opcOf r.pattern ≠ opcOf w) → ∃ why, decode w = .error why)

/-- R55, R56: which words are illegal, item by item, and what an illegal word does: code 8, DATA 0, ESTICKY bit 8, nothing
else. -/
def Obligations.IllegalWordsCompleteWithIllegalCommand : Prop :=
  ∀ w : Word,
    ((∃ why, decode w = .error why) ↔
      opcOf w ∉ [0x00, 0x01, 0x02, 0x03, 0x04, 0x10, 0x11, 0x20, 0x21, 0x22, 0x23] ∨
      (opcOf w ∈ [0x00, 0x20, 0x21, 0x22, 0x23] ∧ ¬(aOf w = 0 ∧ bOf w = 0 ∧ immOf w = 0)) ∨
      (opcOf w = 0x01 ∧ ¬(bOf w = 0 ∧ immOf w = 0)) ∨
      (opcOf w ∈ [0x02, 0x03, 0x10] ∧ bOf w ≠ 0) ∨
      (opcOf w = 0x11 ∧ 1 < (bOf w).toNat) ∨
      (opcOf w = 0x01 ∧ 4 < (aOf w).toNat) ∨
      (opcOf w = 0x02 ∧ 2 < (aOf w).toNat) ∨
      (opcOf w ∈ [0x03, 0x04, 0x10, 0x11] ∧ 2 < (aOf w).toNat)) ∧
    ∀ (s : State) (rest : List HostInput), s.inputs = .command w :: rest → (∃ why, decode w = .error why) →
      step s = .next
        { s with
          esticky := s.esticky ||| 0x0100
          responses := s.responses ++ [0x0800000000000000]
          cc := s.cc + 1
          inputs := rest }

/-- Decoding a command's word gives the command back, with every operand at every value. -/
def Obligations.DecodeOfEncode : Prop :=
  ∀ i : Instr, i.wellFormed = true → decode (encode i) = .ok i

/-- A word that decodes is the word of the command it decodes to, which is well formed: each legal word has one meaning and
each command one word. -/
def Obligations.EncodeOfDecode : Prop :=
  ∀ (w : Word) (i : Instr), decode w = .ok i → encode i = w ∧ i.wellFormed = true

/-- Words of 30_encoding.md section 8 and of vector group V1, one or more for each family. -/
def Obligations.WordsOfTheSpecDecode : Prop :=
  decode 0x0000000000000000 = .ok .nop ∧
  decode 0x0103000000000000 = .ok (.rreg .esticky) ∧
  decode 0x0200000000000003 = .ok (.wreg .k 3) ∧
  decode 0x02020000000A000A = .ok (.wreg .grid 0x000A000A) ∧
  decode 0x0302000000000019 = .ok (.rbyte .ch 25) ∧
  decode 0x0400690000000001 = .ok (.wbyte .pay 0x69 1) ∧
  decode 0x1001000000000019 = .ok (.getbit .frm 25) ∧
  decode 0x110001000000000B = .ok (.setbit .pay true 11) ∧
  decode 0x2000000000000000 = .ok .frame ∧
  decode 0x2100000000000000 = .ok .plan ∧
  decode 0x2200000000000000 = .ok .embed ∧
  decode 0x2300000000000000 = .ok .extract ∧
  decode 0x0500000000000000 = .error .opcode ∧
  decode 0x2200000000000001 = .error .unusedField ∧
  decode 0x0203000000000000 = .error .readOnly ∧
  decode 0x0303000000000000 = .error .space

/-! ### The step (00_scope.md R9, 20_memory.md R36, R38) -/

/-- A step whose oldest pending input is a command word that decodes takes the word from the port and is the command's
meaning. -/
def Obligations.StepRunsTheDecodedCommand : Prop :=
  ∀ (s : State) (w : Word) (rest : List HostInput) (i : Instr),
    s.inputs = .command w :: rest → decode w = .ok i → step s = exec i { s with inputs := rest }

/-- With nothing pending the block holds its state (the model's reading of R140; log entry 4). -/
def Obligations.IdleBlockHoldsItsState : Prop :=
  ∀ s : State, s.inputs = [] → step s = .next s

/-- R141: the step is total: no state is stuck, nothing faults and nothing is refused, for any number of steps from any
state, whatever the port holds. -/
def Obligations.EveryRunGoesOn : Prop :=
  ∀ (n : Nat) (s : State), ∃ t : State, Host.Core.run core n s = Host.Outcome.next t

/-- R57: every command, legal or not, successful or not, returns exactly one response, CODE·2^56 + DATA with a code from 0 to
8, bits 55:40 zero, and DATA 0 with every error; the index advances by 1. -/
def Obligations.OneResponsePerCommand : Prop :=
  ∀ (s : State) (w : Word) (rest : List HostInput), s.inputs = .command w :: rest →
    ∃ (t : State) (r : Word), step s = .next t ∧ t.responses = s.responses ++ [r] ∧ t.cc = s.cc + 1 ∧ t.inputs = rest ∧
      r.toNat = (codeOf r).toNat * 2 ^ 56 + (dataOf r).toNat ∧ (codeOf r).toNat = r.toNat / 2 ^ 56 ∧
      (dataOf r).toNat = r.toNat % 2 ^ 40 ∧ r.extractLsb' 40 16 = 0 ∧ (codeOf r).toNat ≤ 8 ∧
      (codeOf r ≠ 0 → dataOf r = 0)

/-! ### Host access (40_host_access.md) -/

/-- R70: NOP responds 0 and changes nothing; only the all-zero word is NOP. -/
def Obligations.NopChangesNothing : Prop :=
  (∀ s : State, exec .nop s = .next { s with responses := s.responses ++ [0], cc := s.cc + 1 }) ∧
  encode .nop = 0 ∧
  ∀ w : Word, opcOf w = 0x00 → w ≠ 0 → ∃ why, decode w = .error why

/-- R71: RREG responds with the register, zero-extended to 40 bits, and changes nothing; it is legal for registers 0 to 4
with B and IMM zero. -/
def Obligations.RregReturnsTheRegister : Prop :=
  (∀ (s : State) (n : Reg),
    exec (.rreg n) s = .next
      { s with
        responses := s.responses ++ [responseWord 0 (BitVec.ofNat 40
          (match n with
            | .k => s.k.toNat
            | .len => s.len.toNat
            | .grid => s.grid.toNat
            | .esticky => s.esticky.toNat
            | .chmax => s.chMax.toNat))]
        cc := s.cc + 1 }) ∧
  ∀ w : Word, opcOf w = 0x01 →
    ((∃ n, decode w = .ok (.rreg n)) ↔ ((aOf w).toNat ≤ 4 ∧ bOf w = 0 ∧ immOf w = 0)) ∧
    ∀ n, decode w = .ok (.rreg n) →
      aOf w = n.toByte

/-- R72: WREG writes exactly a legal value into exactly its register and responds 0; any other value is refused with BadParam,
the register unchanged; it is legal for registers 0 to 2 with B zero. CH_MAX is at most 2^32 + 3 (R6), so that a legal LEN fits
its register. -/
def Obligations.WregWritesLegalValuesOnly : Prop :=
  (∀ (s : State) (v : Imm), s.chMax.toNat ≤ 4294967299 →
    (if 1 ≤ v.toNat ∧ v.toNat ≤ 8 then
      ∃ x : BitVec 4, x.toNat = v.toNat ∧
        exec (.wreg .k v) s = .next { s with k := x, responses := s.responses ++ [0], cc := s.cc + 1 }
    else exec (.wreg .k v) s = .next (Failed s .badParam)) ∧
    (if v.toNat ≤ s.chMax.toNat - 4 then
      ∃ x : BitVec 32, x.toNat = v.toNat ∧
        exec (.wreg .len v) s = .next { s with len := x, responses := s.responses ++ [0], cc := s.cc + 1 }
    else exec (.wreg .len v) s = .next (Failed s .badParam)) ∧
    (if v.toNat < 2 ^ 32 ∧ 3 * (v.toNat % 65536) * (v.toNat / 65536) ≤ s.chMax.toNat then
      ∃ x : BitVec 32, x.toNat = v.toNat ∧
        exec (.wreg .grid v) s = .next { s with grid := x, responses := s.responses ++ [0], cc := s.cc + 1 }
    else exec (.wreg .grid v) s = .next (Failed s .badParam))) ∧
  ∀ w : Word, opcOf w = 0x02 →
    ((∃ n v, decode w = .ok (.wreg n v)) ↔ ((aOf w).toNat ≤ 2 ∧ bOf w = 0)) ∧
    ∀ n v, decode w = .ok (.wreg n v) → v = immOf w ∧
      aOf w = n.toByte

/-- R73: RBYTE responds with the byte at an address below the physical size of the space (CH_MAX − 4, CH_MAX, CH_MAX) and
changes nothing; beyond it
AddrRange; it is legal for spaces 0 to 2 with B zero. -/
def Obligations.RbyteReturnsTheByte : Prop :=
  (∀ s : State, s.sizeOf .pay = s.chMax.toNat - 4 ∧ s.sizeOf .frm = s.chMax.toNat ∧ s.sizeOf .ch = s.chMax.toNat) ∧
  (∀ (s : State) (sp : Space) (a : Imm),
    exec (.rbyte sp a) s =
      if a.toNat < s.sizeOf sp then
        .next
          { s with
            responses := s.responses ++ [responseWord 0 (BitVec.ofNat 40 (s.readByte sp a.toNat).toNat)]
            cc := s.cc + 1 }
      else .next (Failed s .addrRange)) ∧
  ∀ w : Word, opcOf w = 0x03 →
    ((∃ sp a, decode w = .ok (.rbyte sp a)) ↔ ((aOf w).toNat ≤ 2 ∧ bOf w = 0)) ∧
    ∀ sp a, decode w = .ok (.rbyte sp a) → a = immOf w ∧
      aOf w = sp.toByte

/-- R74: WBYTE writes exactly one byte of one space, at an address below the physical size, responds 0 and changes no
register; beyond it AddrRange, with nothing written; it is legal for spaces 0 to 2, every value of B being data. -/
def Obligations.WbyteWritesOneByte : Prop :=
  (∀ (s : State) (sp : Space) (d : Byte) (a : Imm),
    if a.toNat < s.sizeOf sp then
      ∃ t : State, exec (.wbyte sp d a) s = .next t ∧ Responded s t 0 0 ∧ SameRegisters s t ∧ SameElsewhere s t ∧
        ∀ sp' a', t.readByte sp' a' = if sp' = sp ∧ a' = a.toNat then d else s.readByte sp' a'
    else exec (.wbyte sp d a) s = .next (Failed s .addrRange)) ∧
  ∀ w : Word, opcOf w = 0x04 →
    ((∃ sp d a, decode w = .ok (.wbyte sp d a)) ↔ (aOf w).toNat ≤ 2) ∧
    ∀ sp d a, decode w = .ok (.wbyte sp d a) → a = immOf w ∧ d = bOf w ∧
      aOf w = sp.toByte

/-- The frame of the commands that only read, NOP, RREG, RBYTE and GETBIT: but for the response, the index and, where they
fail, ESTICKY, nothing changes, and where they succeed ESTICKY does not change either. -/
def Obligations.ReadingCommandsChangeNothing : Prop :=
  ∀ (s t : State) (i : Instr),
    (i = .nop ∨ (∃ n, i = .rreg n) ∨ (∃ sp a, i = .rbyte sp a) ∨ ∃ sp j, i = .getbit sp j) →
    exec i s = .next t →
      t = { s with esticky := t.esticky, responses := t.responses, cc := t.cc } ∧
      (∀ d, Responded s t 0 d → t.esticky = s.esticky)

/-! ### Bits (41_bitstream.md, 20_memory.md) -/

/-- R82: GETBIT responds with the bit with an index below 8 times the physical size and changes nothing; beyond it AddrRange;
it is legal for spaces 0 to 2 with B zero. -/
def Obligations.GetbitReturnsTheBit : Prop :=
  (∀ (s : State) (sp : Space) (j : Imm),
    exec (.getbit sp j) s =
      if j.toNat < 8 * s.sizeOf sp then
        .next
          { s with
            responses := s.responses ++
              [responseWord 0 (BitVec.ofNat 40 ((s.readByte sp (j.toNat / 8)).toNat / 2 ^ (j.toNat % 8) % 2))]
            cc := s.cc + 1 }
      else .next (Failed s .addrRange)) ∧
  ∀ w : Word, opcOf w = 0x10 →
    ((∃ sp j, decode w = .ok (.getbit sp j)) ↔ ((aOf w).toNat ≤ 2 ∧ bOf w = 0)) ∧
    ∀ sp j, decode w = .ok (.getbit sp j) → j = immOf w ∧
      aOf w = sp.toByte

/-- R83: SETBIT sets exactly one bit, with an index below 8 times the physical size, responds 0 and changes no register;
beyond it AddrRange, with nothing written; it is legal for spaces 0 to 2 with B at most 1. -/
def Obligations.SetbitWritesOneBit : Prop :=
  (∀ (s : State) (sp : Space) (b : Bool) (j : Imm),
    if j.toNat < 8 * s.sizeOf sp then
      ∃ t : State, exec (.setbit sp b j) s = .next t ∧ Responded s t 0 0 ∧ SameRegisters s t ∧ SameElsewhere s t ∧
        ∀ sp' j', t.getBit sp' j' = if sp' = sp ∧ j' = j.toNat then b else s.getBit sp' j'
    else exec (.setbit sp b j) s = .next (Failed s .addrRange)) ∧
  ∀ w : Word, opcOf w = 0x11 →
    ((∃ sp b j, decode w = .ok (.setbit sp b j)) ↔ ((aOf w).toNat ≤ 2 ∧ (bOf w).toNat ≤ 1)) ∧
    ∀ sp b j, decode w = .ok (.setbit sp b j) → j = immOf w ∧ (bOf w).toNat = b.toNat ∧
      aOf w = sp.toByte

/-- R80, R81: BitGet(S, j) = (S[j div 8] >> (j mod 8)) & 1; BitSet(S, j, b) gives byte j div 8 the value
(S[a] & (~(1 << i) & 0xFF)) | (b << i), i = j mod 8, and leaves every other byte; writing a bit to its own value changes no
byte. -/
def Obligations.BitGetAndBitSet : Prop :=
  ∀ (s : State) (sp : Space) (j : Nat) (b : Bool),
    (s.getBit sp j).toNat = ((s.readByte sp (j / 8)).toNat >>> (j % 8)) &&& 1 ∧
    ((s.setBit sp j b).readByte sp (j / 8)).toNat =
      ((s.readByte sp (j / 8)).toNat &&& (255 - 2 ^ (j % 8))) ||| (b.toNat <<< (j % 8)) ∧
    (∀ sp' a, ¬(sp' = sp ∧ a = j / 8) → (s.setBit sp j b).readByte sp' a = s.readByte sp' a) ∧
    SameBytes s (s.setBit sp j (s.getBit sp j))

/-- R84: the five laws of bit access, on a memory in canonical form. -/
def Obligations.BitAccessLaws : Prop :=
  ∀ (s : State) (sp : Space), Memory.wf sp (s.mem sp) →
    (∀ j b, (s.setBit sp j b).getBit sp j = b) ∧
    (∀ j j' b, j' ≠ j → (s.setBit sp j b).getBit sp j' = s.getBit sp j') ∧
    (∀ j b b', (s.setBit sp j b).setBit sp j b' = s.setBit sp j b') ∧
    (∀ j j' b b', j ≠ j' → (s.setBit sp j b).setBit sp j' b' = (s.setBit sp j' b').setBit sp j b) ∧
    ∀ a, (s.readByte sp a).toNat = ∑ i ∈ Finset.range 8, (s.getBit sp (8 * a + i)).toNat * 2 ^ i

/-- R43: after WBYTE S, a, v, GETBIT S, 8·a + i returns v[i]; after SETBIT S, j, b, RBYTE S, j div 8 returns the old byte with
bit j mod 8 replaced by b and the other seven bits unchanged. -/
def Obligations.MixedWidthAccessesAgree : Prop :=
  ∀ (s : State) (sp : Space), s.chMax.toNat ≤ 4294967299 →
    (∀ (a : Imm) (v : Byte) (i : Nat), a.toNat < s.sizeOf sp → i < 8 →
      ∃ t u : State, exec (.wbyte sp v a) s = .next t ∧
        exec (.getbit sp (BitVec.ofNat 40 (8 * a.toNat + i))) t = .next u ∧ Responded t u 0 (v.getLsbD i).toNat) ∧
    ∀ (j : Imm) (b : Bool), j.toNat < 8 * s.sizeOf sp →
      ∃ (t u : State) (v : Byte), exec (.setbit sp b j) s = .next t ∧
        exec (.rbyte sp (BitVec.ofNat 40 (j.toNat / 8))) t = .next u ∧ Responded t u 0 v.toNat ∧
        ∀ i < 8, v.getLsbD i = if i = j.toNat % 8 then b else (s.readByte sp (j.toNat / 8)).getLsbD i

/-! ### Framing (42_framing.md) -/

/-- R90: BE32 puts the most significant byte first, UnBE32 weighs the bytes b0·2^24 + b1·2^16 + b2·2^8 + b3, and each is the
other's inverse. -/
def Obligations.LengthPrefixIsBigEndian : Prop :=
  (∀ (l : BitVec 32) (n : Nat), n < 4 → (be32 l n).toNat = l.toNat / 2 ^ (8 * (3 - n)) % 256) ∧
  (∀ b0 b1 b2 b3 : Byte,
    (unBe32 b0 b1 b2 b3).toNat = b0.toNat * 2 ^ 24 + b1.toNat * 2 ^ 16 + b2.toNat * 2 ^ 8 + b3.toNat) ∧
  (∀ l : BitVec 32, unBe32 (be32 l 0) (be32 l 1) (be32 l 2) (be32 l 3) = l) ∧
  ∀ b0 b1 b2 b3 : Byte, (List.range 4).map (be32 (unBe32 b0 b1 b2 b3)) = [b0, b1, b2, b3]

/-- R92, with the framed payload of R91: FRAME writes FRM[0..3] = LEN big-endian and FRM[4 + i] = PAY[i] for i < LEN, keeps
every other byte and every register, and responds LEN + 4; where LEN is legal the frame lies inside FRM; FRAME has one word. -/
def Obligations.FrameBuildsTheFramedPayload : Prop :=
  (∀ s : State, ∃ t : State, exec .frame s = .next t ∧ Responded s t 0 (s.len.toNat + 4) ∧ SameRegisters s t ∧
    SameElsewhere s t ∧ SameBytesOf .pay s t ∧ SameBytesOf .ch s t ∧
    (∀ n, n < 4 → (t.readByte .frm n).toNat = s.len.toNat / 2 ^ (8 * (3 - n)) % 256) ∧
    (∀ i, i < s.len.toNat → t.readByte .frm (4 + i) = s.readByte .pay i) ∧
    ∀ a, s.len.toNat + 4 ≤ a → t.readByte .frm a = s.readByte .frm a) ∧
  (∀ s : State, s.Legal → s.len.toNat + 3 < s.sizeOf .frm) ∧
  ∀ w : Word, opcOf w = 0x20 → (decode w = .ok .frame ↔ w = 0x2000000000000000)

/-- R94: a frame's declared length is L, so that its first four bytes determine its length, and its deframed payload is the
payload; framing is injective; stream bit j, j < 32, is bit 8·(3 − j div 8) + j mod 8 of L. -/
def Obligations.FramingLaws : Prop :=
  (∀ (l : BitVec 32) (p : Nat → Byte),
    unBe32 (frameByte l p 0) (frameByte l p 1) (frameByte l p 2) (frameByte l p 3) = l ∧
    (∀ i < l.toNat, frameByte l p (4 + i) = p i) ∧
    ∀ j < 32, bitOf (frameByte l p (j / 8)) (j % 8) = l.getLsbD (8 * (3 - j / 8) + j % 8)) ∧
  ∀ (l l' : BitVec 32) (p p' : Nat → Byte),
    (∀ n < l.toNat + 4, frameByte l p n = frameByte l' p' n) → l = l' ∧ ∀ i < l.toNat, p i = p' i

/-- R95: after FRAME, GETBIT FRM, j returns stream bit j of the framed payload for every j below 8·(LEN + 4), which is the bit
an EMBED that succeeds places at channel j div K, position j mod K. -/
def Obligations.FrameBitsAreTheStream : Prop :=
  ∀ (s t : State) (j : Nat), s.Legal → exec .frame s = .next t → j < 8 * (s.len.toNat + 4) →
    (∃ u : State, exec (.getbit .frm (BitVec.ofNat 40 j)) t = .next u ∧
      Responded t u 0 (bitOf (frameByte s.len (s.readByte .pay) (j / 8)) (j % 8)).toNat) ∧
    (s.nch ≠ 0 → s.total ≤ s.capBits →
      ∃ e : State, exec .embed t = .next e ∧
        bitOf (e.readByte .ch (j / s.k.toNat)) (j % s.k.toNat) =
          bitOf (frameByte s.len (s.readByte .pay) (j / 8)) (j % 8))

/-! ### Capacity (43_capacity.md) -/

/-- R100, R101: T(L) = 8·(L + 4); MinK(L, N) = (T + N − 1) div N is the smallest k with k·N ≥ T, at least 1; the rejected
floor + 1 exceeds it by one exactly when N divides T. -/
def Obligations.MinKIsTheLeastWidth : Prop :=
  ∀ l n : Nat, 0 < n →
    totalBits l = 8 * (l + 4) ∧ minK l n = (8 * (l + 4) + n - 1) / n ∧
    totalBits l ≤ minK l n * n ∧ (∀ k, totalBits l ≤ k * n → minK l n ≤ k) ∧ 1 ≤ minK l n ∧
    totalBits l / n + 1 = if n ∣ totalBits l then minK l n + 1 else minK l n

/-- R104: a payload fits exactly when T(L) ≤ k·N, that is L + 4 ≤ (k·N) div 8, that is L ≤ Cap(k, N); the comparison T > k·N is
the failure condition of PLAN with k = 8, of EMBED, and of EXTRACT with the declared length. -/
def Obligations.CapacityIsOneComparison : Prop :=
  (∀ k n l : Nat,
    (totalBits l ≤ k * n ↔ l + 4 ≤ k * n / 8) ∧
    (totalBits l ≤ k * n ↔ ∃ c, cap k n = some c ∧ l ≤ c) ∧
    (4 ≤ k * n / 8 → cap k n = some (k * n / 8 - 4)) ∧ (k * n / 8 < 4 → cap k n = none)) ∧
  ∀ s : State, s.nch ≠ 0 →
    (exec .plan s = .next (Failed s .insufficientCapacity) ↔ 8 * s.nch < totalBits s.len.toNat) ∧
    (exec .embed s = .next (Failed s .capacityExceeded) ↔ s.k.toNat * s.nch < totalBits s.len.toNat) ∧
    (32 ≤ s.k.toNat * s.nch →
      (exec .extract s = .next (Failed s .lengthOverflow) ↔ s.k.toNat * s.nch < totalBits s.declaredLen.toNat))

/-- R102: PLAN fails with DegenerateInput on an empty grid, else with InsufficientCapacity where the smallest width exceeds 8,
else loads the smallest width into K, responds with it and changes nothing else; PLAN has one word. -/
def Obligations.PlanLoadsTheLeastWidth : Prop :=
  (∀ s : State,
    if s.nch = 0 then exec .plan s = .next (Failed s .degenerateInput)
    else if 8 < (8 * (s.len.toNat + 4) + s.nch - 1) / s.nch then
      exec .plan s = .next (Failed s .insufficientCapacity)
    else
      ∃ x : BitVec 4, x.toNat = (8 * (s.len.toNat + 4) + s.nch - 1) / s.nch ∧
        exec .plan s = .next
          { s with
            k := x
            responses := s.responses ++ [responseWord 0 (BitVec.ofNat 40 x.toNat)]
            cc := s.cc + 1 }) ∧
  ∀ w : Word, opcOf w = 0x21 → (decode w = .ok .plan ↔ w = 0x2100000000000000)

/-- R103: a PLAN that succeeds leaves a K at which EMBED succeeds, and one less is insufficient; where PLAN raises
InsufficientCapacity, EMBED raises CapacityExceeded for every legal K; PLAN succeeds exactly when NCH ≥ 1 and
LEN + 4 ≤ NCH. -/
def Obligations.PlanThenEmbed : Prop :=
  ∀ s t : State, exec .plan s = .next t →
    ((∃ d, Responded s t 0 d) →
      s.total ≤ t.k.toNat * s.nch ∧ (∃ (u : State) (d : Nat), exec .embed t = .next u ∧ Responded t u 0 d) ∧
      (1 < t.k.toNat →
        (t.k.toNat - 1) * s.nch < s.total ∧
        exec .embed { t with k := t.k - 1 } = .next (Failed { t with k := t.k - 1 } .capacityExceeded))) ∧
    (t = Failed s .insufficientCapacity →
      8 * s.nch < s.total ∧
      ∀ x : BitVec 4, 1 ≤ x.toNat → x.toNat ≤ 8 →
        exec .embed { s with k := x } = .next (Failed { s with k := x } .capacityExceeded)) ∧
    ((∃ d, Responded s t 0 d) ↔ (1 ≤ s.nch ∧ s.len.toNat + 4 ≤ s.nch))

/-! ### The codec (44_lsbcodec.md) -/

/-- R114, with the mapping of R111 and the untouched bits of R112: EMBED fails with DegenerateInput on an empty grid, else with
CapacityExceeded where T > K·N; else FRM holds the framed payload, bit i of channel c holds stream bit c·K + i exactly where
i < K and c·K + i < T and its old value everywhere else, the response is ceil(T / K), and nothing else changes; EMBED has one
word. K is at most 8 (R25). -/
def Obligations.EmbedPacksTheFrame : Prop :=
  (∀ s : State, s.k.toNat ≤ 8 →
    if s.nch = 0 then exec .embed s = .next (Failed s .degenerateInput)
    else if s.k.toNat * s.nch < 8 * (s.len.toNat + 4) then exec .embed s = .next (Failed s .capacityExceeded)
    else
      ∃ t : State, exec .embed s = .next t ∧
        Responded s t 0 ((8 * (s.len.toNat + 4) + s.k.toNat - 1) / s.k.toNat) ∧ SameRegisters s t ∧ SameElsewhere s t ∧
        SameBytesOf .pay s t ∧
        (∀ n, n < 4 → (t.readByte .frm n).toNat = s.len.toNat / 2 ^ (8 * (3 - n)) % 256) ∧
        (∀ i, i < s.len.toNat → t.readByte .frm (4 + i) = s.readByte .pay i) ∧
        (∀ a, s.len.toNat + 4 ≤ a → t.readByte .frm a = s.readByte .frm a) ∧
        ∀ c i, i < 8 →
          bitOf (t.readByte .ch c) i =
            if i < s.k.toNat ∧ c * s.k.toNat + i < 8 * (s.len.toNat + 4) then
              bitOf (t.readByte .frm ((c * s.k.toNat + i) / 8)) ((c * s.k.toNat + i) % 8)
            else bitOf (s.readByte .ch c) i) ∧
  ∀ w : Word, opcOf w = 0x22 → (decode w = .ok .embed ↔ w = 0x2200000000000000)

/-- R121: the closed form of the channel values an EMBED that succeeds leaves, the number of channels that receive a bit, and
that no channel changes by 2^K or more. -/
def Obligations.PackedChannelValues : Prop :=
  ∀ s t : State, 1 ≤ s.k.toNat → s.k.toNat ≤ 8 → s.nch ≠ 0 → s.total ≤ s.capBits → exec .embed s = .next t →
    (∀ c, c < s.total / s.k.toNat →
      (t.readByte .ch c).toNat =
        ((s.readByte .ch c).toNat &&& (255 - (2 ^ s.k.toNat - 1))) +
          ∑ i ∈ Finset.range s.k.toNat, (t.getBit .frm (c * s.k.toNat + i)).toNat * 2 ^ i) ∧
    (∀ c, c = s.total / s.k.toNat → 0 < s.total % s.k.toNat →
      (t.readByte .ch c).toNat =
        ((s.readByte .ch c).toNat &&& (255 - (2 ^ (s.total % s.k.toNat) - 1))) +
          ∑ i ∈ Finset.range (s.total % s.k.toNat), (t.getBit .frm (c * s.k.toNat + i)).toNat * 2 ^ i) ∧
    (∀ c, (s.total / s.k.toNat < c ∨ (c = s.total / s.k.toNat ∧ s.total % s.k.toNat = 0)) →
      t.readByte .ch c = s.readByte .ch c) ∧
    Responded s t 0 (s.total / s.k.toNat + if 0 < s.total % s.k.toNat then 1 else 0) ∧
    ∀ c, (t.readByte .ch c).toNat < (s.readByte .ch c).toNat + 2 ^ s.k.toNat ∧
      (s.readByte .ch c).toNat < (t.readByte .ch c).toNat + 2 ^ s.k.toNat

/-- R116: EXTRACT fails with DegenerateInput on an empty grid, else with TruncatedStream where K·N < 32, else with
LengthOverflow where 8·(L + 4) > K·N for the declared length L; else FRM[n] = StreamByte(CH, K, n) for n < L + 4,
PAY[n] = FRM[4 + n] for n < L, LEN = L, the response is L, and nothing else changes; EXTRACT has one word. -/
def Obligations.ExtractUnpacksTheFrame : Prop :=
  (∀ (s : State) (l : BitVec 32),
    l = unBe32 (streamByte s.ch s.k.toNat 0) (streamByte s.ch s.k.toNat 1) (streamByte s.ch s.k.toNat 2)
      (streamByte s.ch s.k.toNat 3) →
    if s.nch = 0 then exec .extract s = .next (Failed s .degenerateInput)
    else if s.k.toNat * s.nch < 32 then exec .extract s = .next (Failed s .truncatedStream)
    else if s.k.toNat * s.nch < 8 * (l.toNat + 4) then exec .extract s = .next (Failed s .lengthOverflow)
    else
      ∃ t : State, exec .extract s = .next t ∧ Responded s t 0 l.toNat ∧ SameElsewhere s t ∧
        t.k = s.k ∧ t.len = l ∧ t.grid = s.grid ∧ t.esticky = s.esticky ∧ t.chMax = s.chMax ∧ SameBytesOf .ch s t ∧
        (∀ n, n < l.toNat + 4 → t.readByte .frm n = streamByte s.ch s.k.toNat n) ∧
        (∀ n, l.toNat + 4 ≤ n → t.readByte .frm n = s.readByte .frm n) ∧
        (∀ n, n < l.toNat → t.readByte .pay n = t.readByte .frm (4 + n)) ∧
        ∀ n, l.toNat ≤ n → t.readByte .pay n = s.readByte .pay n) ∧
  ∀ w : Word, opcOf w = 0x23 → (decode w = .ok .extract ↔ w = 0x2300000000000000)

/-- R115: StreamBit and StreamByte; a stream byte is defined when 8·(n + 1) ≤ K·NCH, equivalently (8·n + 7) div K < NCH; only
positions 0 to K − 1 of a channel are read. -/
def Obligations.StreamBytesReadLowBitsOnly : Prop :=
  ∀ (ch : Memory) (k n : Nat), 0 < k → k ≤ 8 →
    (∀ j, (streamBit ch k j).toNat = ((Memory.read .ch ch (j / k)).toNat >>> (j % k)) &&& 1) ∧
    (streamByte ch k n).toNat = ∑ i ∈ Finset.range 8, (streamBit ch k (8 * n + i)).toNat * 2 ^ i ∧
    (∀ nch, (8 * n + 7) / k < nch ↔ 8 * (n + 1) ≤ k * nch) ∧
    ∀ ch' : Memory,
      (∀ c i, i < k → bitOf (Memory.read .ch ch' c) i = bitOf (Memory.read .ch ch c) i) →
      streamByte ch' k n = streamByte ch k n

/-- R116 corner case 3: where EXTRACT succeeds with length L, no channel bit at or beyond stream bit 8·(L + 4) and no position
at or above K influences the result: with any other CH that agrees on the bits consulted, EXTRACT leaves the same state but for
CH. -/
def Obligations.ExtractIgnoresTheRestOfTheChannels : Prop :=
  ∀ (s : State) (m : Memory), 1 ≤ s.k.toNat → s.k.toNat ≤ 8 → s.nch ≠ 0 → 32 ≤ s.capBits →
    totalBits s.declaredLen.toNat ≤ s.capBits →
    (∀ c i, i < s.k.toNat → c * s.k.toNat + i < totalBits s.declaredLen.toNat →
      bitOf (Memory.read .ch m c) i = bitOf (Memory.read .ch s.ch c) i) →
    ∃ (t : State) (d : Nat), exec .extract s = .next t ∧ Responded s t 0 d ∧
      exec .extract { s with ch := m } = .next { t with ch := m }

/-- R117: in a state with legal registers no access of EXTRACT or EMBED that passes its checks leaves its memory, and every
stream byte read is defined. -/
def Obligations.BulkAccessesStayInside : Prop :=
  ∀ s : State, s.Legal → s.nch ≠ 0 →
    (totalBits s.declaredLen.toNat ≤ s.capBits →
      s.declaredLen.toNat + 4 ≤ s.chMax.toNat ∧ s.declaredLen.toNat ≤ s.sizeOf .pay ∧
      s.declaredLen.toNat + 3 ≤ s.sizeOf .frm - 1 ∧
      ∀ n, n ≤ s.declaredLen.toNat + 3 → (8 * n + 7) / s.k.toNat < s.nch) ∧
    (32 ≤ s.capBits → ∀ n, n < 4 → (8 * n + 7) / s.k.toNat < s.nch) ∧
    (s.total ≤ s.capBits →
      ceilDiv s.total s.k.toNat ≤ s.nch ∧ s.nch ≤ s.chMax.toNat ∧ s.len.toNat + 3 ≤ s.chMax.toNat - 1)

/-- R118, the round trip: where the frame fits, EMBED succeeds, and an EXTRACT in any later state with K and GRID unchanged and
the written channels unchanged succeeds with DATA = LEN, LEN the embedded length, PAY[0..LEN−1] the embedded payload, and
FRM[0..LEN+3] as EMBED left it, for every carrier and every payload. -/
def Obligations.RoundTrip : Prop :=
  ∀ s : State, s.k.toNat ≤ 8 → 1 ≤ s.nch → 8 * (s.len.toNat + 4) ≤ s.k.toNat * s.nch →
    ∃ (t : State) (d : Nat), exec .embed s = .next t ∧ Responded s t 0 d ∧
      ∀ u : State, u.k = t.k → u.grid = t.grid →
        (∀ c, c < ceilDiv s.total s.k.toNat → u.readByte .ch c = t.readByte .ch c) →
        ∃ v : State, exec .extract u = .next v ∧ Responded u v 0 s.len.toNat ∧ v.len = s.len ∧
          (∀ i, i < s.len.toNat → v.readByte .pay i = s.readByte .pay i) ∧
          ∀ n, n < s.len.toNat + 4 → v.readByte .frm n = t.readByte .frm n

/-- R120: K = 8 is a byte copy both ways, and a grid holds NCH − 4 payload bytes; at K = 1 channel j carries stream bit j in its
bit 0; at K = 2 and 4 channel c holds bits (c mod (8/K))·K and up of framed byte c div (8/K); at every K channel c holds stream
bits c·K to c·K + K − 1. -/
def Obligations.SpecialWidths : Prop :=
  (∀ (ch : Memory) (n : Nat), streamByte ch 8 n = Memory.read .ch ch n) ∧
  (∀ n, 4 ≤ n → cap 8 n = some (n - 4)) ∧
  ∀ s t : State, 1 ≤ s.k.toNat → s.k.toNat ≤ 8 → s.nch ≠ 0 → s.total ≤ s.capBits → exec .embed s = .next t →
    (s.k = 8 → ∀ c, c < s.len.toNat + 4 → t.readByte .ch c = t.readByte .frm c) ∧
    (s.k = 1 → ∀ j, j < s.total → bitOf (t.readByte .ch j) 0 = t.getBit .frm j) ∧
    (s.k = 2 ∨ s.k = 4 → ∀ c i, i < s.k.toNat → c < s.total / s.k.toNat →
      bitOf (t.readByte .ch c) i =
        bitOf (t.readByte .frm (c / (8 / s.k.toNat))) ((c % (8 / s.k.toNat)) * s.k.toNat + i)) ∧
    ∀ c i, i < s.k.toNat → c < s.total / s.k.toNat →
      bitOf (t.readByte .ch c) i = t.getBit .frm (c * s.k.toNat + i)

/-! ### Errors (60_exceptions.md) -/

/-- R134: a command that completes with a code other than 0 leaves the state before it but for the bit of the
error in ESTICKY; the response carries the code and DATA 0. -/
def Obligations.FailingCommandChangesOnlyItsStickyBit : Prop :=
  ∀ (s t : State) (w : Word) (rest : List HostInput) (r : Word),
    s.inputs = .command w :: rest → step s = .next t → t.responses = s.responses ++ [r] → codeOf r ≠ 0 →
      t = { s with
            esticky := s.esticky ||| (1#16 <<< (codeOf r).toNat)
            responses := s.responses ++ [responseWord (codeOf r) 0]
            cc := s.cc + 1
            inputs := rest }

/-- R131, R133: a command reports the first of its causes that holds, in the order of R133, and only that one; it succeeds
where none holds. -/
def Obligations.CompletionCodeIsTheFirstCause : Prop :=
  ∀ (s : State) (w : Word) (rest : List HostInput), s.inputs = .command w :: rest →
    ∃ (t : State) (d : Nat), step s = .next t ∧
      match firstCause (s.wordCauses w) with
      | none => t.responses = s.responses ++ [responseWord 0 (BitVec.ofNat 40 d)] ∧ t.esticky = s.esticky
      | some e => t.responses = s.responses ++ [responseWord e.code 0] ∧
          t.esticky = s.esticky ||| (1#16 <<< e.code.toNat)

/-- R132: a word with a given OPC returns only the codes of its row, and every code of a row is returned by some such word in
some state that meets the invariant. -/
def Obligations.CodesOfEachCommand : Prop :=
  (∀ (s t : State) (w : Word) (rest : List HostInput) (r : Word),
    s.inputs = .command w :: rest → step s = .next t → t.responses = s.responses ++ [r] →
      (codeOf r).toNat ∈ codesOf (opcOf w)) ∧
  ∀ (opc : Byte) (c : Nat), c ∈ codesOf opc →
    ∃ (s t : State) (w : Word) (r : Word), s.Inv ∧ opcOf w = opc ∧ s.inputs = [.command w] ∧ step s = .next t ∧
      t.responses = s.responses ++ [r] ∧ (codeOf r).toNat = c

/-- R17: at reset ESTICKY is the record of no error. -/
def Obligations.StickyLogAtReset : Prop := State.reset.StickyLog

/-- R17: in every state a step keeps ESTICKY the record of the errors since the last reset: bit c is 1 if and only if some
command since then has completed with code c, and no other bit is 1. -/
def Obligations.StickyLogKeptByStep : Prop :=
  ∀ s t : State, s.StickyLog → step s = .next t → t.StickyLog

/-- R136: ESTICKY affects no command's behaviour: with another ESTICKY a command other than RREG ESTICKY leaves the same state
and response, and sets the same bits in it. -/
def Obligations.EstickyAffectsNoCommand : Prop :=
  ∀ (i : Instr) (s t : State) (e : BitVec 16), i ≠ .rreg .esticky → exec i s = .next t →
    ∃ d : BitVec 16, t.esticky = s.esticky ||| d ∧
      exec i { s with esticky := e } = .next { t with esticky := e ||| d }

/-! ### State and invariants (10_state.md, 20_memory.md) -/

/-- R26, R151: the state after reset: K = 1, LEN = 0, GRID = 0, ESTICKY = 0, CHMAX = CH_MAX, the index 0, and every byte of the
memories the free byte of its space and address: the model's reading of "unspecified" (log entry 1, DEDUCED). -/
def Obligations.ResetState : Prop :=
  State.reset.k = 1 ∧ State.reset.len = 0 ∧ State.reset.grid = 0 ∧ State.reset.esticky = 0 ∧
  State.reset.chMax.toNat = Config.chMax ∧ State.reset.cc = 0 ∧
  ∀ a, State.reset.readByte .pay a = Config.payInit a ∧ State.reset.readByte .frm a = Config.frmInit a ∧
    State.reset.readByte .ch a = Config.chInit a

/-- R25 at reset. -/
def Obligations.InvAtReset : Prop := State.reset.Inv

/-- R25: every step, from every state that meets the invariant, gives a state that meets it: legal registers, canonical
memories, no listed address outside its space. -/
def Obligations.InvKeptByStep : Prop :=
  ∀ s t : State, s.Inv → step s = .next t → t.Inv

/-- Which commands write which register: K by WREG and PLAN, LEN by WREG and EXTRACT, GRID by WREG, CHMAX by none; no command
clears a bit of ESTICKY (R10, R14 to R18). -/
def Obligations.OnlyTheseCommandsWriteTheRegisters : Prop :=
  ∀ (i : Instr) (s t : State), exec i s = .next t →
    (t.k ≠ s.k → (∃ v, i = .wreg .k v) ∨ i = .plan) ∧
    (t.len ≠ s.len → (∃ v, i = .wreg .len v) ∨ i = .extract) ∧
    (t.grid ≠ s.grid → ∃ v, i = .wreg .grid v) ∧
    t.chMax = s.chMax ∧ s.esticky &&& t.esticky = s.esticky ∧ SameElsewhere s t

/-- The frame of memory: a command changes no byte outside the ranges it writes: WBYTE and SETBIT the one byte they name,
FRAME FRM[0..LEN+3], EMBED FRM[0..LEN+3] and CH[0..ceil(T/K)−1], EXTRACT FRM[0..L+3] and PAY[0..L−1], every other command and
every failing one nothing (the table of R30). -/
def Obligations.BytesOutsideTheWriteRangesAreKept : Prop :=
  ∀ (i : Instr) (s t : State) (sp : Space) (a : Nat), exec i s = .next t →
    (∀ r ∈ s.writeRanges i, ¬r.has sp a) → t.readByte sp a = s.readByte sp a

/-- R19: the derived quantities and their ranges, in a state with legal registers. -/
def Obligations.DerivedQuantitiesInRange : Prop :=
  ∀ s : State,
    s.width = s.grid.toNat % 65536 ∧ s.height = s.grid.toNat / 65536 ∧ s.npix = s.width * s.height ∧
    s.nch = 3 * s.width * s.height ∧ s.total = 8 * (s.len.toNat + 4) ∧ s.capBits = s.k.toNat * s.nch ∧
    (s.Legal →
      s.width ≤ 65535 ∧ s.height ≤ 65535 ∧ s.npix ≤ s.chMax.toNat / 3 ∧ s.nch ≤ s.chMax.toNat ∧
      32 ≤ s.total ∧ s.total ≤ 8 * s.chMax.toNat ∧ s.capBits ≤ 8 * s.chMax.toNat ∧
      s.total < 2 ^ 36 ∧ s.capBits < 2 ^ 37)

/-- R23, R110: the layout CH[3·(y·W + x) + c] numbers the channels of a W × H grid 0 to 3·W·H − 1 without gap or overlap, in
row-major pixel order and in the order of the colours within a pixel. -/
def Obligations.ChannelLayoutIsABijection : Prop :=
  ∀ w h : Nat,
    (∀ x y c, x < w → y < h → c < 3 → channelIndex w x y c < 3 * w * h) ∧
    (∀ n, n < 3 * w * h → ∃ x y c, x < w ∧ y < h ∧ c < 3 ∧ channelIndex w x y c = n) ∧
    ∀ x y c x' y' c', x < w → c < 3 → x' < w → c' < 3 →
      (channelIndex w x y c < channelIndex w x' y' c' ↔
        y < y' ∨ (y = y' ∧ (x < x' ∨ (x = x' ∧ c < c'))))

/-- R23, R155: W and H enter the block's behaviour only through the channel count: with another GRID of the same count every
command but RREG GRID and WREG GRID answers alike and keeps it, and WREG GRID writes or refuses alike. -/
def Obligations.GridActsThroughItsChannelCount : Prop :=
  ∀ (i : Instr) (s t : State) (g : BitVec 32), i ≠ .rreg .grid → gridChannels g = s.nch → exec i s = .next t →
    ((∀ v, i ≠ .wreg .grid v) → exec i { s with grid := g } = .next { t with grid := g }) ∧
    ((∃ v, i = .wreg .grid v) →
      ((∃ d, Responded s t 0 d) → exec i { s with grid := g } = .next t) ∧
      (¬(∃ d, Responded s t 0 d) → exec i { s with grid := g } = .next { t with grid := g }))

/-- R150: the reset event sets K = 1, LEN = 0, GRID = 0, ESTICKY = 0, restarts the index and writes no memory; arriving during
a command it also leaves unspecified at most the bytes the command could have written; it returns no response. That the inputs
still pending and the responses already returned stay is the model's choice (log entries 5 and 6). -/
def Obligations.ResetEventResetsTheRegisters : Prop :=
  ∀ (s : State) (rest : List HostInput),
    (s.inputs = .reset :: rest →
      step s = .next { s with k := 1, len := 0, grid := 0, esticky := 0, cc := 0, inputs := rest }) ∧
    ∀ w : Word, s.inputs = .resetDuring w :: rest →
      ∃ t : State, step s = .next t ∧ t.k = 1 ∧ t.len = 0 ∧ t.grid = 0 ∧ t.esticky = 0 ∧ t.chMax = s.chMax ∧ t.cc = 0 ∧
        t.inputs = rest ∧ t.responses = s.responses ∧
        ∀ sp a,
          (∀ i, decode w = .ok i → ∀ r ∈ s.writeRanges i, ¬r.has sp a) →
          t.readByte sp a = s.readByte sp a

/-- R41: a command that succeeds, done twice, leaves the state and gives the response of once. -/
def Obligations.SuccessfulCommandsAreIdempotent : Prop :=
  ∀ (i : Instr) (s t : State) (r : Word), s.Inv → exec i s = .next t → t.responses = s.responses ++ [r] → codeOf r = 0 →
    exec i t = .next { t with responses := t.responses ++ [r], cc := t.cc + 1 }

/-- R162: a run of a finite list of command words is one step for each, in order; it ends with the list, no error ends it
early, and it returns a list of responses of the same length: the run of `w :: ws` is the run of `ws` from the state that the
step of `w` leaves, that step adds the one response of `w`, and it is the same whatever words wait behind `w`. -/
def Obligations.RunOfCommandsAnswersEach : Prop :=
  (∀ (s : State) (ws : List Word), ∃ (t : State) (rs : List Word),
    Host.Core.run core ws.length (s.load ws) = Host.Outcome.next t ∧ rs.length = ws.length ∧
    t.responses = s.responses ++ rs ∧ t.cc = s.cc + ws.length ∧ t.inputs = []) ∧
  ∀ (s : State) (w : Word), ∃ (t : State) (r : Word),
    step (s.load [w]) = .next t ∧ t.responses = s.responses ++ [r] ∧
    ∀ ws : List Word,
      step (s.load (w :: ws)) = .next (t.load ws) ∧
      Host.Core.run core (w :: ws).length (s.load (w :: ws)) = Host.Core.run core ws.length (t.load ws)

/-! ### Programs and several blocks -/

/-- R59, R60: the assembler's line for a command is the command's word; a line whose operands all fit their fields is the word
of those fields, even an illegal one, and a line with any operand that does not fit its field gives no word. A
pseudo-instruction gives none exactly where a command of its expansion gives none: an address counts up from the first byte's,
and a register takes the whole value. That the misfit refuses the line, rather than being reported otherwise, is the model's
choice (log entry 14). -/
def Obligations.AssemblerEncodesCommands : Prop :=
  (∀ i : Instr, assemble (lineOf i) = some [encode i]) ∧
  (∀ reg value space addr byte index bit : Nat,
    assemble (.rreg reg) = (if reg < 2 ^ 8 then some [makeWord 0x01 (BitVec.ofNat 8 reg) 0 0] else none) ∧
    assemble (.wreg reg value) =
      (if reg < 2 ^ 8 ∧ value < 2 ^ 40 then
        some [makeWord 0x02 (BitVec.ofNat 8 reg) 0 (BitVec.ofNat 40 value)] else none) ∧
    assemble (.rbyte space addr) =
      (if space < 2 ^ 8 ∧ addr < 2 ^ 40 then
        some [makeWord 0x03 (BitVec.ofNat 8 space) 0 (BitVec.ofNat 40 addr)] else none) ∧
    assemble (.wbyte space addr byte) =
      (if space < 2 ^ 8 ∧ addr < 2 ^ 40 ∧ byte < 2 ^ 8 then
        some [makeWord 0x04 (BitVec.ofNat 8 space) (BitVec.ofNat 8 byte) (BitVec.ofNat 40 addr)] else none) ∧
    assemble (.getbit space index) =
      (if space < 2 ^ 8 ∧ index < 2 ^ 40 then
        some [makeWord 0x10 (BitVec.ofNat 8 space) 0 (BitVec.ofNat 40 index)] else none) ∧
    assemble (.setbit space index bit) =
      (if space < 2 ^ 8 ∧ index < 2 ^ 40 ∧ bit < 2 ^ 8 then
        some [makeWord 0x11 (BitVec.ofNat 8 space) (BitVec.ofNat 8 bit) (BitVec.ofNat 40 index)] else none)) ∧
  (∀ w h : Nat,
    assemble (.setgrid w h) =
      (if h * 65536 + w < 2 ^ 40 then some [makeWord 0x02 2 0 (BitVec.ofNat 40 (h * 65536 + w))] else none)) ∧
  (∀ bytes : List Nat, assemble (.ldpay bytes) = none ↔ (∃ b ∈ bytes, 2 ^ 8 ≤ b) ∨ 2 ^ 40 ≤ bytes.length) ∧
  (∀ (addr : Nat) (bytes : List Nat),
    assemble (.ldch addr bytes) = none ↔ (∃ b ∈ bytes, 2 ^ 8 ≤ b) ∨ (bytes ≠ [] ∧ 2 ^ 40 < addr + bytes.length)) ∧
  ∀ addr n v : Nat, assemble (.fillch addr n v) = none ↔ 0 < n ∧ (2 ^ 8 ≤ v ∨ 2 ^ 40 < addr + n)

/-- R60: running the expansion of SETGRID sets GRID; of LDPAY loads the payload and its length; of LDCH loads channels, and of
FILLCH equal ones; nothing else changes and no command fails, where the values fit. -/
def Obligations.PseudoInstructionsLoadTheBlock : Prop :=
  ∀ s : State, s.Legal →
    (∀ w h : Nat, w < 65536 → h < 65536 → 3 * w * h ≤ s.chMax.toNat →
      ∃ (ws : List Word) (t : State), assemble (.setgrid w h) = some ws ∧
        Host.Core.run core ws.length (s.load ws) = Host.Outcome.next t ∧
        t.width = w ∧ t.height = h ∧ t.k = s.k ∧ t.len = s.len ∧ t.esticky = s.esticky ∧ SameBytes s t) ∧
    (∀ bs : List Byte, bs.length ≤ s.sizeOf .pay →
      ∃ (ws : List Word) (t : State), assemble (.ldpay (bs.map BitVec.toNat)) = some ws ∧
        Host.Core.run core ws.length (s.load ws) = Host.Outcome.next t ∧
        t.len.toNat = bs.length ∧ t.k = s.k ∧ t.grid = s.grid ∧ t.esticky = s.esticky ∧
        ∀ sp a, t.readByte sp a = if sp = .pay then bs.getD a (s.readByte .pay a) else s.readByte sp a) ∧
    (∀ a n v : Nat, assemble (.fillch a n v) = assemble (.ldch a (List.replicate n v))) ∧
    ∀ (a : Nat) (bs : List Byte), a + bs.length ≤ s.sizeOf .ch →
      ∃ (ws : List Word) (t : State), assemble (.ldch a (bs.map BitVec.toNat)) = some ws ∧
        Host.Core.run core ws.length (s.load ws) = Host.Outcome.next t ∧ SameRegisters s t ∧
        ∀ sp b, t.readByte sp b =
          if sp = .ch ∧ a ≤ b then bs.getD (b - a) (s.readByte .ch b) else s.readByte sp b

/-- R142: in a product of blocks a step of one leaves every other as it was, and is that block's own step. -/
def Obligations.InstancesShareNothing : Prop :=
  ∀ (n : Nat) (ss : List State), ∃ ts : List State, stepInstance n ss = .next ts ∧ ts.length = ss.length ∧
    (∀ m, m ≠ n → ts[m]? = ss[m]?) ∧
    ∀ s t : State, ss[n]? = some s → step s = .next t → ts[n]? = some t

/-- R151: after reset no byte is listed; a byte that is not listed stays so through every step but one whose command, executed
or abandoned by a reset, could write it; and in every state an unlisted byte inside its space reads as the same free byte,
through RBYTE and through GETBIT, with no fault. CH_MAX is at most 2^32 + 3 (R6), so that its addresses and bit indices fit IMM.
That the free byte is an opaque constant of its space and address is log entry 1. -/
def Obligations.UnwrittenBytesReadAlike : Prop :=
  ∀ (sp : Space) (a : Nat),
    Memory.lookup (State.reset.mem sp) a = none ∧
    (∀ s t : State, Memory.lookup (s.mem sp) a = none → step s = .next t →
      (∀ (w : Word) (rest : List HostInput) (i : Instr),
        s.inputs = .command w :: rest ∨ s.inputs = .resetDuring w :: rest → decode w = .ok i →
        ∀ r ∈ s.writeRanges i, ¬r.has sp a) →
      Memory.lookup (t.mem sp) a = none ∧ t.readByte sp a = initByte sp a) ∧
    ∀ s : State, Memory.lookup (s.mem sp) a = none → s.chMax.toNat ≤ 4294967299 → a < s.sizeOf sp →
      (∃ t : State, exec (.rbyte sp (BitVec.ofNat 40 a)) s = .next t ∧ Responded s t 0 (initByte sp a).toNat) ∧
      ∀ i < 8, ∃ t : State, exec (.getbit sp (BitVec.ofNat 40 (8 * a + i))) s = .next t ∧
        Responded s t 0 ((initByte sp a).getLsbD i).toNat
end

