-- ==== Sys2Proof/Laws/Bits.lean ====
section
/-! SUPPORT. Bits of bytes, the length prefix and the fields of words: one lemma a function. -/

namespace Sys2Proof.Machine

/-- Bit `i` of a byte after bit `j` is set. -/
theorem bitOf_withBit (v : Byte) (i j : Nat) (b : Bool) (hi : i < 8) (hj : j < 8) :
    bitOf (withBit v j b) i = if i = j then b else bitOf v i := by
  unfold bitOf withBit
  interval_cases i <;> interval_cases j <;> cases b <;> simp

theorem byte_ext {u v : Byte} (h : ∀ i < 8, bitOf u i = bitOf v i) : u = v :=
  BitVec.eq_of_getLsbD_eq fun i hi => h i hi

theorem bitSum_lt (f : Nat → Bool) (n : Nat) : bitSum f n < 2 ^ n := by
  induction n with
  | zero => simp [bitSum]
  | succ n ih =>
    have : (f n).toNat ≤ 1 := Bool.toNat_le _
    have : (f n).toNat * 2 ^ n ≤ 1 * 2 ^ n := Nat.mul_le_mul_right _ this
    simp only [bitSum, Nat.pow_succ]
    omega

theorem testBit_bitSum (f : Nat → Bool) (n i : Nat) :
    (bitSum f n).testBit i = (decide (i < n) && f i) := by
  induction n with
  | zero => simp [bitSum]
  | succ n ih =>
    have hlt := bitSum_lt f n
    rw [bitSum, Nat.add_comm, Nat.mul_comm, Nat.testBit_two_pow_mul_add _ hlt]
    split
    · rename_i h; rw [ih]; simp [h, Nat.lt_succ_of_lt h]
    · rename_i h
      cases hf : f n
      · by_cases hi : i = n
        · subst hi; simp [hf]
        · have : ¬ i < n + 1 := by omega
          simp [this]
      · by_cases hi : i = n
        · subst hi; simp [hf]
        · have h1 : ¬ i < n + 1 := by omega
          have h2 : i - n ≠ 0 := by omega
          simp only [h1, decide_false, Bool.false_and, Bool.toNat_true]
          exact Nat.testBit_one_eq_true_iff_self_eq_zero.not.mpr h2 |> Bool.eq_false_iff.mpr

/-- Bit `i` of the byte assembled from bits. -/
theorem bitOf_byteOfBits (f : Nat → Bool) (i : Nat) (hi : i < 8) : bitOf (byteOfBits f) i = f i := by
  unfold bitOf byteOfBits
  rw [BitVec.getLsbD_ofNat, testBit_bitSum]
  simp [hi]

/-- A byte is assembled from its own bits (41_bitstream.md R84 law 5). -/
theorem byteOfBits_bitOf (v : Byte) : byteOfBits (bitOf v) = v :=
  byte_ext fun i hi => bitOf_byteOfBits _ i hi

theorem byteOfBits_congr {f g : Nat → Bool} (h : ∀ i < 8, f i = g i) : byteOfBits f = byteOfBits g :=
  byte_ext fun i hi => by rw [bitOf_byteOfBits _ i hi, bitOf_byteOfBits _ i hi, h i hi]

/-! ### Fields of words -/

/-- The bits of four fields laid side by side. -/
theorem getLsbD_append4 {n₁ n₂ n₃ n₄ : Nat} (x : BitVec n₁) (y : BitVec n₂) (z : BitVec n₃) (u : BitVec n₄) (i : Nat) :
    (x ++ y ++ z ++ u).getLsbD i =
      if i < n₄ then u.getLsbD i
      else if i - n₄ < n₃ then z.getLsbD (i - n₄)
      else if i - n₄ - n₃ < n₂ then y.getLsbD (i - n₄ - n₃)
      else x.getLsbD (i - n₄ - n₃ - n₂) := by
  rw [BitVec.getLsbD_append, BitVec.getLsbD_append, BitVec.getLsbD_append]

/-- The bits of a command word made of its fields. -/
theorem getLsbD_makeWord (o a b : Byte) (m : Imm) (i : Nat) :
    (makeWord o a b m).getLsbD i =
      if i < 40 then m.getLsbD i
      else if i - 40 < 8 then b.getLsbD (i - 40)
      else if i - 40 - 8 < 8 then a.getLsbD (i - 40 - 8)
      else o.getLsbD (i - 40 - 8 - 8) := getLsbD_append4 o a b m i

/-- The bits of a response word made of its fields. -/
theorem getLsbD_responseWord (c : BitVec 8) (d : Imm) (i : Nat) :
    (responseWord c d).getLsbD i =
      if i < 40 then d.getLsbD i
      else if i - 40 < 16 then (0#16).getLsbD (i - 40)
      else c.getLsbD (i - 40 - 16) := by
  show BitVec.getLsbD (w := 8 + 16 + 40) (c ++ 0#16 ++ d) i = _
  rw [BitVec.getLsbD_append, BitVec.getLsbD_append]

/-- The bits of the length read from four bytes. -/
theorem getLsbD_unBe32 (b0 b1 b2 b3 : Byte) (i : Nat) :
    (unBe32 b0 b1 b2 b3).getLsbD i =
      if i < 8 then b3.getLsbD i
      else if i - 8 < 8 then b2.getLsbD (i - 8)
      else if i - 8 - 8 < 8 then b1.getLsbD (i - 8 - 8)
      else b0.getLsbD (i - 8 - 8 - 8) := getLsbD_append4 b0 b1 b2 b3 i

theorem opcOf_makeWord (o a b : Byte) (m : Imm) : opcOf (makeWord o a b m) = o := by
  refine BitVec.eq_of_getLsbD_eq fun i hi => ?_
  rw [opcOf, BitVec.getLsbD_extractLsb', getLsbD_makeWord, if_neg (by omega), if_neg (by omega), if_neg (by omega)]
  simp [hi, show 56 + i - 40 - 8 - 8 = i by omega]

theorem aOf_makeWord (o a b : Byte) (m : Imm) : aOf (makeWord o a b m) = a := by
  refine BitVec.eq_of_getLsbD_eq fun i hi => ?_
  rw [aOf, BitVec.getLsbD_extractLsb', getLsbD_makeWord, if_neg (by omega), if_neg (by omega), if_pos (by omega)]
  simp [hi, show 48 + i - 40 - 8 = i by omega]

theorem bOf_makeWord (o a b : Byte) (m : Imm) : bOf (makeWord o a b m) = b := by
  refine BitVec.eq_of_getLsbD_eq fun i hi => ?_
  rw [bOf, BitVec.getLsbD_extractLsb', getLsbD_makeWord, if_neg (by omega), if_pos (by omega)]
  simp [hi]

theorem immOf_makeWord (o a b : Byte) (m : Imm) : immOf (makeWord o a b m) = m := by
  refine BitVec.eq_of_getLsbD_eq fun i hi => ?_
  rw [immOf, BitVec.getLsbD_extractLsb', getLsbD_makeWord, if_pos (by omega)]
  simp [hi]

theorem codeOf_responseWord (c : BitVec 8) (d : Imm) : codeOf (responseWord c d) = c := by
  refine BitVec.eq_of_getLsbD_eq fun i hi => ?_
  rw [codeOf, BitVec.getLsbD_extractLsb', getLsbD_responseWord, if_neg (by omega), if_neg (by omega)]
  simp [hi, show 56 + i - 40 - 16 = i by omega]

theorem dataOf_responseWord (c : BitVec 8) (d : Imm) : dataOf (responseWord c d) = d := by
  refine BitVec.eq_of_getLsbD_eq fun i hi => ?_
  rw [dataOf, BitVec.getLsbD_extractLsb', getLsbD_responseWord, if_pos (by omega)]
  simp [hi]

theorem zeros_responseWord (c : BitVec 8) (d : Imm) : (responseWord c d).extractLsb' 40 16 = 0 := by
  refine BitVec.eq_of_getLsbD_eq fun i hi => ?_
  rw [BitVec.getLsbD_extractLsb', getLsbD_responseWord, if_neg (by omega), if_pos (by omega)]
  simp

/-- Reading back the big-endian length gives the length. -/
theorem unBe32_be32 (l : BitVec 32) : unBe32 (be32 l 0) (be32 l 1) (be32 l 2) (be32 l 3) = l := by
  refine BitVec.eq_of_getLsbD_eq fun i hi => ?_
  rw [getLsbD_unBe32]
  simp only [be32, BitVec.getLsbD_extractLsb']
  split
  · rename_i h; simp [h]
  · split
    · rename_i h1 h; simp [h, show 8 + (i - 8) = i by omega]
    · split
      · rename_i h1 h2 h; simp [h, show 16 + (i - 8 - 8) = i by omega]
      · rename_i h1 h2 h3
        simp [show 24 + (i - 8 - 8 - 8) = i by omega, show i - 8 - 8 - 8 < 8 by omega]

end Sys2Proof.Machine
end

