-- ==== Sys2Proof/Laws/Memory.lean ====
section
/-! SUPPORT. Memory: what a read gives after each operation, and that every operation keeps the canonical form and the
bound on addresses. -/

namespace Sys2Proof.Machine

variable {sp : Space} {m : Memory} {a b n : Nat} {v : Byte}

/-! ### Looking up -/

theorem lookup_insert (m : Memory) (a b : Nat) (v : Byte) :
    Memory.lookup (Memory.insert m a v) b = if a = b then some v else Memory.lookup m b := by
  induction m with
  | nil => rfl
  | cons c m ih =>
    obtain ⟨x, w⟩ := c
    simp only [Memory.insert]
    split
    · rfl
    · split
      · subst x
        simp only [Memory.lookup]
        split <;> rfl
      · rename_i h1 h2
        simp only [Memory.lookup, ih]
        split
        · subst b; simp [h2]
        · rfl

theorem lookup_erase (m : Memory) (a b : Nat) :
    Memory.lookup (Memory.erase m a) b = if a = b then none else Memory.lookup m b := by
  induction m with
  | nil => simp [Memory.erase, Memory.lookup]
  | cons c m ih =>
    obtain ⟨x, w⟩ := c
    simp only [Memory.erase, List.filter_cons] at ih ⊢
    by_cases hx : x = a
    · subst hx
      simp only [bne_self_eq_false, Bool.false_eq_true, if_false, Memory.lookup]
      rw [ih]
      split <;> rfl
    · have : (x != a) = true := by simpa using hx
      simp only [this, if_true, Memory.lookup, ih]
      split
      · subst b; simp [Ne.symm hx]
      · rfl

/-- A read after a write: the value written at its own address, the value before at every other. -/
theorem read_write (sp : Space) (m : Memory) (a b : Nat) (v : Byte) :
    Memory.read sp (Memory.write sp m a v) b = if a = b then v else Memory.read sp m b := by
  unfold Memory.read Memory.write
  split
  · rename_i h; rw [lookup_erase]; split <;> simp_all
  · rw [lookup_insert]; split <;> simp

@[simp] theorem read_write_same (sp : Space) (m : Memory) (a : Nat) (v : Byte) :
    Memory.read sp (Memory.write sp m a v) a = v := by simp [read_write]

/-- A read after `fill`: the filled range holds the values, every other address is as before. -/
theorem read_fill (sp : Space) (f : Nat → Byte) (base n : Nat) (m : Memory) (a : Nat) :
    Memory.read sp (Memory.fill sp f base n m) a =
      if base ≤ a ∧ a < base + n then f (a - base) else Memory.read sp m a := by
  induction n with
  | zero => simp only [Memory.fill]; split <;> [omega; rfl]
  | succ n ih =>
    simp only [Memory.fill, read_write, ih]
    split
    · subst a; simp
    · split <;> split <;> first | rfl | omega

/-- A bit after a write of a bit. -/
theorem getBit_setBit (sp : Space) (m : Memory) (j j' : Nat) (b : Bool) :
    Memory.getBit sp (Memory.setBit sp m j b) j' = if j = j' then b else Memory.getBit sp m j' := by
  have h8 : j % 8 < 8 := Nat.mod_lt _ (by decide)
  have h8' : j' % 8 < 8 := Nat.mod_lt _ (by decide)
  unfold Memory.getBit Memory.setBit
  rw [read_write]
  by_cases hd : j / 8 = j' / 8
  · rw [if_pos hd, bitOf_withBit _ _ _ _ h8' h8, hd]
    by_cases hj : j = j'
    · simp [hj]
    · have : ¬ j' % 8 = j % 8 := by omega
      simp [hj, this]
  · have : j ≠ j' := fun h => hd (by rw [h])
    simp [hd, this]

/-! ### Unlisted addresses -/

/-- An unlisted address reads as its free byte. -/
theorem read_of_lookup_none (h : Memory.lookup m a = none) : Memory.read sp m a = initByte sp a := by
  simp [Memory.read, h]

/-- A write lists no address but its own. -/
theorem lookup_write_of_ne (h : a ≠ b) : Memory.lookup (Memory.write sp m a v) b = Memory.lookup m b := by
  unfold Memory.write
  split
  · rw [lookup_erase, if_neg h]
  · rw [lookup_insert, if_neg h]

/-- A fill lists no address outside its range. -/
theorem lookup_fill_of_not_mem {f : Nat → Byte} {base : Nat} (h : ¬(base ≤ a ∧ a < base + n)) :
    Memory.lookup (Memory.fill sp f base n m) a = Memory.lookup m a := by
  induction n with
  | zero => rfl
  | succ n ih => rw [Memory.fill, lookup_write_of_ne (by omega), ih (by omega)]

/-! ### The canonical form -/

theorem mem_insert {m : Memory} {a : Nat} {v : Byte} {c : Host.Cell} (h : c ∈ Memory.insert m a v) :
    c = (a, v) ∨ c ∈ m := by
  induction m with
  | nil => simpa [Memory.insert] using h
  | cons d m ih =>
    obtain ⟨x, w⟩ := d
    simp only [Memory.insert] at h
    split at h
    · simpa using h
    · split at h
      · rcases List.mem_cons.mp h with h | h
        · exact .inl h
        · exact .inr (List.mem_cons_of_mem _ h)
      · rcases List.mem_cons.mp h with h | h
        · exact .inr (by simp [h])
        · rcases ih h with h | h
          · exact .inl h
          · exact .inr (List.mem_cons_of_mem _ h)

theorem pairwise_insert {m : Memory} (h : List.Pairwise (fun x y : Host.Cell => x.1 < y.1) m) (a : Nat) (v : Byte) :
    List.Pairwise (fun x y : Host.Cell => x.1 < y.1) (Memory.insert m a v) := by
  induction m with
  | nil => simp [Memory.insert]
  | cons d m ih =>
    obtain ⟨x, w⟩ := d
    obtain ⟨h1, h2⟩ := List.pairwise_cons.mp h
    simp only [Memory.insert]
    split
    · rename_i hlt
      refine List.pairwise_cons.mpr ⟨fun c hc => ?_, h⟩
      rcases List.mem_cons.mp hc with rfl | hc
      · exact hlt
      · exact Nat.lt_trans hlt (h1 c hc)
    · split
      · subst x; exact List.pairwise_cons.mpr ⟨h1, h2⟩
      · refine List.pairwise_cons.mpr ⟨fun c hc => ?_, ih h2⟩
        rcases mem_insert hc with rfl | hc
        · show x < a
          omega
        · exact h1 c hc

/-- A write keeps the canonical form. -/
theorem wf_write (h : Memory.wf sp m) (a : Nat) (v : Byte) : Memory.wf sp (Memory.write sp m a v) := by
  unfold Memory.write
  split
  · exact ⟨h.1.filter _, fun c hc => h.2 c (List.mem_of_mem_filter hc)⟩
  · rename_i hv
    refine ⟨pairwise_insert h.1 a v, fun c hc => ?_⟩
    rcases mem_insert hc with rfl | hc
    · exact hv
    · exact h.2 c hc

/-- A write at an existing address lists no address that does not exist. -/
theorem within_write (h : Memory.within n m) (ha : a < n) (v : Byte) : Memory.within n (Memory.write sp m a v) := by
  unfold Memory.write
  split
  · exact fun c hc => h c (List.mem_of_mem_filter hc)
  · intro c hc
    rcases mem_insert hc with rfl | hc
    · exact ha
    · exact h c hc

theorem wf_fill (h : Memory.wf sp m) (f : Nat → Byte) (base n : Nat) : Memory.wf sp (Memory.fill sp f base n m) := by
  induction n with
  | zero => exact h
  | succ n ih => exact wf_write ih _ _

theorem within_fill {base k : Nat} (h : Memory.within n m) (f : Nat → Byte) (hk : base + k ≤ n) :
    Memory.within n (Memory.fill sp f base k m) := by
  induction k with
  | zero => exact h
  | succ k ih => exact within_write (ih (by omega)) (by omega) _

theorem wf_setBit (h : Memory.wf sp m) (j : Nat) (b : Bool) : Memory.wf sp (Memory.setBit sp m j b) := wf_write h _ _

theorem within_setBit {j : Nat} (h : Memory.within n m) (hj : j < 8 * n) (b : Bool) :
    Memory.within n (Memory.setBit sp m j b) := within_write h (by omega) _

/-- Nothing listed is in canonical form. -/
theorem wf_nil (sp : Space) : Memory.wf sp [] := ⟨.nil, fun _ h => nomatch h⟩

theorem lookup_eq_none_of_lt {m : Memory} {a : Nat} (h : ∀ c ∈ m, a < c.1) : Memory.lookup m a = none := by
  induction m with
  | nil => rfl
  | cons d m ih =>
    obtain ⟨x, w⟩ := d
    have hx : a < x := h (x, w) (by simp)
    simp only [Memory.lookup]
    rw [if_neg (by omega)]
    exact ih fun c hc => h c (List.mem_cons_of_mem _ hc)

theorem lookup_eq_of_read_eq {m : Memory} (h : Memory.wf sp m) (a : Nat) :
    Memory.lookup m a = if Memory.read sp m a = initByte sp a then none else some (Memory.read sp m a) := by
  unfold Memory.read
  induction m with
  | nil => simp [Memory.lookup]
  | cons d m ih =>
    obtain ⟨x, w⟩ := d
    simp only [Memory.lookup]
    split
    · rename_i hx
      have := h.2 (x, w) (by simp)
      simp_all
    · exact ih ⟨(List.pairwise_cons.mp h.1).2, fun c hc => h.2 c (List.mem_cons_of_mem _ hc)⟩

theorem eq_of_lookup_eq {m m' : Memory} (h : List.Pairwise (fun x y : Host.Cell => x.1 < y.1) m)
    (h' : List.Pairwise (fun x y : Host.Cell => x.1 < y.1) m')
    (he : ∀ a, Memory.lookup m a = Memory.lookup m' a) : m = m' := by
  induction m generalizing m' with
  | nil =>
    cases m' with
    | nil => rfl
    | cons d m' => simpa [Memory.lookup] using he d.1
  | cons c m ih =>
    cases m' with
    | nil => simpa [Memory.lookup] using he c.1
    | cons d m' =>
      obtain ⟨x, v⟩ := c
      obtain ⟨y, w⟩ := d
      obtain ⟨h1, h2⟩ := List.pairwise_cons.mp h
      obtain ⟨h1', h2'⟩ := List.pairwise_cons.mp h'
      have hxy : x = y := by
        rcases Nat.lt_trichotomy x y with hlt | heq | hgt
        · have hn : Memory.lookup ((y, w) :: m') x = none := lookup_eq_none_of_lt fun c hc => by
            rcases List.mem_cons.mp hc with rfl | hc
            · exact hlt
            · exact Nat.lt_trans hlt (h1' c hc)
          have := he x
          rw [hn] at this
          simp [Memory.lookup] at this
        · exact heq
        · have hn : Memory.lookup ((x, v) :: m) y = none := lookup_eq_none_of_lt fun c hc => by
            rcases List.mem_cons.mp hc with rfl | hc
            · exact hgt
            · exact Nat.lt_trans hgt (h1 c hc)
          have := he y
          rw [hn] at this
          simp [Memory.lookup] at this
      subst hxy
      have hvw : v = w := by simpa [Memory.lookup] using he x
      subst hvw
      rw [ih h2 h2' fun a => ?_]
      by_cases ha : x = a
      · subst ha
        rw [lookup_eq_none_of_lt h1, lookup_eq_none_of_lt h1']
      · simpa [Memory.lookup, ha] using he a

/-- Equal contents are equal data: two memories in canonical form that read alike everywhere are the same list. -/
theorem eq_of_read_eq {m m' : Memory} (h : Memory.wf sp m) (h' : Memory.wf sp m')
    (he : ∀ a, Memory.read sp m a = Memory.read sp m' a) : m = m' :=
  eq_of_lookup_eq h.1 h'.1 fun a => by rw [lookup_eq_of_read_eq h, lookup_eq_of_read_eq h', he]

end Sys2Proof.Machine
end

