-- ==== Sys2Proof/Laws/Capacity.lean ====
section
/-! SUPPORT. The ceiling arithmetic of the capacity planner. -/

namespace Sys2Proof.Machine

/-- The ceiling is below a bound exactly when the dividend is within the bound's multiple. -/
theorem ceilDiv_le_iff {a b c : Nat} (hb : 0 < b) : ceilDiv a b ≤ c ↔ a ≤ c * b := by
  unfold ceilDiv
  rw [← Nat.lt_succ_iff, Nat.div_lt_iff_lt_mul hb, Nat.succ_mul]
  omega

/-- The multiple of the ceiling reaches the dividend. -/
theorem le_ceilDiv_mul {a b : Nat} (hb : 0 < b) : a ≤ ceilDiv a b * b := (ceilDiv_le_iff hb).mp (Nat.le_refl _)

/-- `a / b` is below the ceiling exactly where something is left. -/
theorem lt_ceilDiv_iff {a b c : Nat} (hb : 0 < b) : c < ceilDiv a b ↔ c * b < a := by
  rw [← Nat.not_le, ceilDiv_le_iff hb, Nat.not_le]

/-- The ceiling is q, or q + 1 where the division leaves a remainder (44_lsbcodec.md R121). -/
theorem ceilDiv_eq {a b : Nat} (hb : 0 < b) : ceilDiv a b = a / b + if 0 < a % b then 1 else 0 := by
  have h := Nat.div_add_mod a b
  have hlt := Nat.mod_lt a hb
  have h2 : b * (a / b) = a / b * b := Nat.mul_comm _ _
  apply Nat.le_antisymm
  · rw [ceilDiv_le_iff hb]
    split
    · rw [Nat.succ_mul]; omega
    · rw [Nat.add_zero]; omega
  · split
    · rw [Nat.succ_le_iff, lt_ceilDiv_iff hb]; omega
    · rw [Nat.add_zero]
      unfold ceilDiv
      exact Nat.div_le_div_right (by omega)

theorem minK_le_iff {l n k : Nat} (hn : 0 < n) : minK l n ≤ k ↔ totalBits l ≤ k * n := ceilDiv_le_iff hn

theorem lt_minK_iff {l n k : Nat} (hn : 0 < n) : k < minK l n ↔ k * n < totalBits l := lt_ceilDiv_iff hn

/-- A bit width is at least 1, since the prefix alone has 32 bits. -/
theorem minK_pos {l n : Nat} (hn : 0 < n) : 0 < minK l n := by
  rw [lt_minK_iff hn]; unfold totalBits; omega

end Sys2Proof.Machine
end

