-- ==== Sys2Proof/Laws/State.lean ====
section
/-! SUPPORT. One lemma a field a state update, so that no later proof unfolds a record update. -/

namespace Sys2Proof.Machine

/-! ### `takeInput` -/

@[simp] theorem takeInput_k (s : State) (rest : List HostInput) : (s.takeInput rest).k = s.k := rfl
@[simp] theorem takeInput_len (s : State) (rest : List HostInput) : (s.takeInput rest).len = s.len := rfl
@[simp] theorem takeInput_grid (s : State) (rest : List HostInput) : (s.takeInput rest).grid = s.grid := rfl
@[simp] theorem takeInput_esticky (s : State) (rest : List HostInput) : (s.takeInput rest).esticky = s.esticky := rfl
@[simp] theorem takeInput_chMax (s : State) (rest : List HostInput) : (s.takeInput rest).chMax = s.chMax := rfl
@[simp] theorem takeInput_pay (s : State) (rest : List HostInput) : (s.takeInput rest).pay = s.pay := rfl
@[simp] theorem takeInput_frm (s : State) (rest : List HostInput) : (s.takeInput rest).frm = s.frm := rfl
@[simp] theorem takeInput_ch (s : State) (rest : List HostInput) : (s.takeInput rest).ch = s.ch := rfl
@[simp] theorem takeInput_cc (s : State) (rest : List HostInput) : (s.takeInput rest).cc = s.cc := rfl
@[simp] theorem takeInput_inputs (s : State) (rest : List HostInput) : (s.takeInput rest).inputs = rest := rfl
@[simp] theorem takeInput_responses (s : State) (rest : List HostInput) :
    (s.takeInput rest).responses = s.responses := rfl
@[simp] theorem takeInput_freeNext (s : State) (rest : List HostInput) :
    (s.takeInput rest).freeNext = s.freeNext := rfl

/-! ### `complete` -/

@[simp] theorem complete_k (s : State) (c : BitVec 8) (d : Imm) : (s.complete c d).k = s.k := rfl
@[simp] theorem complete_len (s : State) (c : BitVec 8) (d : Imm) : (s.complete c d).len = s.len := rfl
@[simp] theorem complete_grid (s : State) (c : BitVec 8) (d : Imm) : (s.complete c d).grid = s.grid := rfl
@[simp] theorem complete_esticky (s : State) (c : BitVec 8) (d : Imm) : (s.complete c d).esticky = s.esticky := rfl
@[simp] theorem complete_chMax (s : State) (c : BitVec 8) (d : Imm) : (s.complete c d).chMax = s.chMax := rfl
@[simp] theorem complete_pay (s : State) (c : BitVec 8) (d : Imm) : (s.complete c d).pay = s.pay := rfl
@[simp] theorem complete_frm (s : State) (c : BitVec 8) (d : Imm) : (s.complete c d).frm = s.frm := rfl
@[simp] theorem complete_ch (s : State) (c : BitVec 8) (d : Imm) : (s.complete c d).ch = s.ch := rfl
@[simp] theorem complete_cc (s : State) (c : BitVec 8) (d : Imm) : (s.complete c d).cc = s.cc + 1 := rfl
@[simp] theorem complete_inputs (s : State) (c : BitVec 8) (d : Imm) : (s.complete c d).inputs = s.inputs := rfl
@[simp] theorem complete_responses (s : State) (c : BitVec 8) (d : Imm) :
    (s.complete c d).responses = s.responses ++ [responseWord c d] := rfl
@[simp] theorem complete_freeNext (s : State) (c : BitVec 8) (d : Imm) : (s.complete c d).freeNext = s.freeNext := rfl

/-! ### `respondOk` -/

@[simp] theorem respondOk_k (s : State) (d : Imm) : (s.respondOk d).k = s.k := rfl
@[simp] theorem respondOk_len (s : State) (d : Imm) : (s.respondOk d).len = s.len := rfl
@[simp] theorem respondOk_grid (s : State) (d : Imm) : (s.respondOk d).grid = s.grid := rfl
@[simp] theorem respondOk_esticky (s : State) (d : Imm) : (s.respondOk d).esticky = s.esticky := rfl
@[simp] theorem respondOk_chMax (s : State) (d : Imm) : (s.respondOk d).chMax = s.chMax := rfl
@[simp] theorem respondOk_pay (s : State) (d : Imm) : (s.respondOk d).pay = s.pay := rfl
@[simp] theorem respondOk_frm (s : State) (d : Imm) : (s.respondOk d).frm = s.frm := rfl
@[simp] theorem respondOk_ch (s : State) (d : Imm) : (s.respondOk d).ch = s.ch := rfl
@[simp] theorem respondOk_cc (s : State) (d : Imm) : (s.respondOk d).cc = s.cc + 1 := rfl
@[simp] theorem respondOk_inputs (s : State) (d : Imm) : (s.respondOk d).inputs = s.inputs := rfl
@[simp] theorem respondOk_responses (s : State) (d : Imm) :
    (s.respondOk d).responses = s.responses ++ [responseWord 0 d] := rfl
@[simp] theorem respondOk_freeNext (s : State) (d : Imm) : (s.respondOk d).freeNext = s.freeNext := rfl

/-! ### `raise` -/

@[simp] theorem raise_k (s : State) (e : ErrCode) : (s.raise e).k = s.k := rfl
@[simp] theorem raise_len (s : State) (e : ErrCode) : (s.raise e).len = s.len := rfl
@[simp] theorem raise_grid (s : State) (e : ErrCode) : (s.raise e).grid = s.grid := rfl
@[simp] theorem raise_esticky (s : State) (e : ErrCode) : (s.raise e).esticky = stickySet s.esticky e := rfl
@[simp] theorem raise_chMax (s : State) (e : ErrCode) : (s.raise e).chMax = s.chMax := rfl
@[simp] theorem raise_pay (s : State) (e : ErrCode) : (s.raise e).pay = s.pay := rfl
@[simp] theorem raise_frm (s : State) (e : ErrCode) : (s.raise e).frm = s.frm := rfl
@[simp] theorem raise_ch (s : State) (e : ErrCode) : (s.raise e).ch = s.ch := rfl
@[simp] theorem raise_cc (s : State) (e : ErrCode) : (s.raise e).cc = s.cc + 1 := rfl
@[simp] theorem raise_inputs (s : State) (e : ErrCode) : (s.raise e).inputs = s.inputs := rfl
@[simp] theorem raise_responses (s : State) (e : ErrCode) :
    (s.raise e).responses = s.responses ++ [responseWord e.code 0] := rfl
@[simp] theorem raise_freeNext (s : State) (e : ErrCode) : (s.raise e).freeNext = s.freeNext := rfl

/-! ### `applyReset` -/

@[simp] theorem applyReset_k (s : State) : (s.applyReset).k = 1 := rfl
@[simp] theorem applyReset_len (s : State) : (s.applyReset).len = 0 := rfl
@[simp] theorem applyReset_grid (s : State) : (s.applyReset).grid = 0 := rfl
@[simp] theorem applyReset_esticky (s : State) : (s.applyReset).esticky = 0 := rfl
@[simp] theorem applyReset_chMax (s : State) : (s.applyReset).chMax = s.chMax := rfl
@[simp] theorem applyReset_pay (s : State) : (s.applyReset).pay = s.pay := rfl
@[simp] theorem applyReset_frm (s : State) : (s.applyReset).frm = s.frm := rfl
@[simp] theorem applyReset_ch (s : State) : (s.applyReset).ch = s.ch := rfl
@[simp] theorem applyReset_cc (s : State) : (s.applyReset).cc = 0 := rfl
@[simp] theorem applyReset_inputs (s : State) : (s.applyReset).inputs = s.inputs := rfl
@[simp] theorem applyReset_responses (s : State) : (s.applyReset).responses = s.responses := rfl
@[simp] theorem applyReset_freeNext (s : State) : (s.applyReset).freeNext = s.freeNext := rfl

/-! ### `buildFrame` -/

@[simp] theorem buildFrame_k (s : State) : (s.buildFrame).k = s.k := rfl
@[simp] theorem buildFrame_len (s : State) : (s.buildFrame).len = s.len := rfl
@[simp] theorem buildFrame_grid (s : State) : (s.buildFrame).grid = s.grid := rfl
@[simp] theorem buildFrame_esticky (s : State) : (s.buildFrame).esticky = s.esticky := rfl
@[simp] theorem buildFrame_chMax (s : State) : (s.buildFrame).chMax = s.chMax := rfl
@[simp] theorem buildFrame_pay (s : State) : (s.buildFrame).pay = s.pay := rfl
@[simp] theorem buildFrame_frm (s : State) :
    (s.buildFrame).frm = Memory.fill .frm (s.readByte .pay) 4 s.len.toNat (Memory.fill .frm (be32 s.len) 0 4 s.frm) := rfl
@[simp] theorem buildFrame_ch (s : State) : (s.buildFrame).ch = s.ch := rfl
@[simp] theorem buildFrame_cc (s : State) : (s.buildFrame).cc = s.cc := rfl
@[simp] theorem buildFrame_inputs (s : State) : (s.buildFrame).inputs = s.inputs := rfl
@[simp] theorem buildFrame_responses (s : State) : (s.buildFrame).responses = s.responses := rfl
@[simp] theorem buildFrame_freeNext (s : State) : (s.buildFrame).freeNext = s.freeNext := rfl

/-! ### `packFrame` -/

@[simp] theorem packFrame_k (s : State) : (s.packFrame).k = s.k := rfl
@[simp] theorem packFrame_len (s : State) : (s.packFrame).len = s.len := rfl
@[simp] theorem packFrame_grid (s : State) : (s.packFrame).grid = s.grid := rfl
@[simp] theorem packFrame_esticky (s : State) : (s.packFrame).esticky = s.esticky := rfl
@[simp] theorem packFrame_chMax (s : State) : (s.packFrame).chMax = s.chMax := rfl
@[simp] theorem packFrame_pay (s : State) : (s.packFrame).pay = s.pay := rfl
@[simp] theorem packFrame_frm (s : State) : (s.packFrame).frm = s.buildFrame.frm := rfl
@[simp] theorem packFrame_ch (s : State) : (s.packFrame).ch = packBits s.k.toNat s.buildFrame.frm s.total s.ch := rfl
@[simp] theorem packFrame_cc (s : State) : (s.packFrame).cc = s.cc := rfl
@[simp] theorem packFrame_inputs (s : State) : (s.packFrame).inputs = s.inputs := rfl
@[simp] theorem packFrame_responses (s : State) : (s.packFrame).responses = s.responses := rfl
@[simp] theorem packFrame_freeNext (s : State) : (s.packFrame).freeNext = s.freeNext := rfl

/-! ### `unpackFrame` -/

@[simp] theorem unpackFrame_k (s : State) : (s.unpackFrame).k = s.k := rfl
@[simp] theorem unpackFrame_len (s : State) : (s.unpackFrame).len = s.len := rfl
@[simp] theorem unpackFrame_grid (s : State) : (s.unpackFrame).grid = s.grid := rfl
@[simp] theorem unpackFrame_esticky (s : State) : (s.unpackFrame).esticky = s.esticky := rfl
@[simp] theorem unpackFrame_chMax (s : State) : (s.unpackFrame).chMax = s.chMax := rfl
@[simp] theorem unpackFrame_pay (s : State) : (s.unpackFrame).pay = s.pay := rfl
@[simp] theorem unpackFrame_frm (s : State) :
    (s.unpackFrame).frm = Memory.fill .frm (streamByte s.ch s.k.toNat) 0 (s.declaredLen.toNat + 4) s.frm := rfl
@[simp] theorem unpackFrame_ch (s : State) : (s.unpackFrame).ch = s.ch := rfl
@[simp] theorem unpackFrame_cc (s : State) : (s.unpackFrame).cc = s.cc := rfl
@[simp] theorem unpackFrame_inputs (s : State) : (s.unpackFrame).inputs = s.inputs := rfl
@[simp] theorem unpackFrame_responses (s : State) : (s.unpackFrame).responses = s.responses := rfl
@[simp] theorem unpackFrame_freeNext (s : State) : (s.unpackFrame).freeNext = s.freeNext := rfl

/-! ### `unpackPayload` -/

@[simp] theorem unpackPayload_k (s : State) : (s.unpackPayload).k = s.k := rfl
@[simp] theorem unpackPayload_len (s : State) : (s.unpackPayload).len = s.declaredLen := rfl
@[simp] theorem unpackPayload_grid (s : State) : (s.unpackPayload).grid = s.grid := rfl
@[simp] theorem unpackPayload_esticky (s : State) : (s.unpackPayload).esticky = s.esticky := rfl
@[simp] theorem unpackPayload_chMax (s : State) : (s.unpackPayload).chMax = s.chMax := rfl
@[simp] theorem unpackPayload_pay (s : State) :
    (s.unpackPayload).pay = Memory.fill .pay (fun n => s.unpackFrame.readByte .frm (4 + n)) 0 s.declaredLen.toNat s.pay := rfl
@[simp] theorem unpackPayload_frm (s : State) : (s.unpackPayload).frm = s.unpackFrame.frm := rfl
@[simp] theorem unpackPayload_ch (s : State) : (s.unpackPayload).ch = s.ch := rfl
@[simp] theorem unpackPayload_cc (s : State) : (s.unpackPayload).cc = s.cc := rfl
@[simp] theorem unpackPayload_inputs (s : State) : (s.unpackPayload).inputs = s.inputs := rfl
@[simp] theorem unpackPayload_responses (s : State) : (s.unpackPayload).responses = s.responses := rfl
@[simp] theorem unpackPayload_freeNext (s : State) : (s.unpackPayload).freeNext = s.freeNext := rfl

/-! ### `setMem` -/

@[simp] theorem setMem_k (s : State) (sp : Space) (m : Memory) : (s.setMem sp m).k = s.k := by
  cases sp <;> rfl
@[simp] theorem setMem_len (s : State) (sp : Space) (m : Memory) : (s.setMem sp m).len = s.len := by
  cases sp <;> rfl
@[simp] theorem setMem_grid (s : State) (sp : Space) (m : Memory) : (s.setMem sp m).grid = s.grid := by
  cases sp <;> rfl
@[simp] theorem setMem_esticky (s : State) (sp : Space) (m : Memory) : (s.setMem sp m).esticky = s.esticky := by
  cases sp <;> rfl
@[simp] theorem setMem_chMax (s : State) (sp : Space) (m : Memory) : (s.setMem sp m).chMax = s.chMax := by
  cases sp <;> rfl
@[simp] theorem setMem_cc (s : State) (sp : Space) (m : Memory) : (s.setMem sp m).cc = s.cc := by
  cases sp <;> rfl
@[simp] theorem setMem_inputs (s : State) (sp : Space) (m : Memory) : (s.setMem sp m).inputs = s.inputs := by
  cases sp <;> rfl
@[simp] theorem setMem_responses (s : State) (sp : Space) (m : Memory) : (s.setMem sp m).responses = s.responses := by
  cases sp <;> rfl
@[simp] theorem setMem_freeNext (s : State) (sp : Space) (m : Memory) : (s.setMem sp m).freeNext = s.freeNext := by
  cases sp <;> rfl

/-- A memory after another memory has been replaced. -/
@[simp] theorem mem_setMem (s : State) (sp sp' : Space) (m : Memory) :
    (s.setMem sp m).mem sp' = if sp = sp' then m else s.mem sp' := by
  cases sp <;> cases sp' <;> rfl

/-! ### Memories and sizes after an update that leaves them alone -/

@[simp] theorem mem_takeInput (s : State) (rest : List HostInput) (sp : Space) : (s.takeInput rest).mem sp = s.mem sp := by
  cases sp <;> rfl
@[simp] theorem readByte_takeInput (s : State) (rest : List HostInput) (sp : Space) (a : Nat) :
    (s.takeInput rest).readByte sp a = s.readByte sp a := by
  cases sp <;> rfl
@[simp] theorem sizeOf_takeInput (s : State) (rest : List HostInput) (sp : Space) : (s.takeInput rest).sizeOf sp = s.sizeOf sp := by
  cases sp <;> rfl
@[simp] theorem mem_complete (s : State) (c : BitVec 8) (d : Imm) (sp : Space) : (s.complete c d).mem sp = s.mem sp := by
  cases sp <;> rfl
@[simp] theorem readByte_complete (s : State) (c : BitVec 8) (d : Imm) (sp : Space) (a : Nat) :
    (s.complete c d).readByte sp a = s.readByte sp a := by
  cases sp <;> rfl
@[simp] theorem sizeOf_complete (s : State) (c : BitVec 8) (d : Imm) (sp : Space) : (s.complete c d).sizeOf sp = s.sizeOf sp := by
  cases sp <;> rfl
@[simp] theorem mem_respondOk (s : State) (d : Imm) (sp : Space) : (s.respondOk d).mem sp = s.mem sp := by
  cases sp <;> rfl
@[simp] theorem readByte_respondOk (s : State) (d : Imm) (sp : Space) (a : Nat) :
    (s.respondOk d).readByte sp a = s.readByte sp a := by
  cases sp <;> rfl
@[simp] theorem sizeOf_respondOk (s : State) (d : Imm) (sp : Space) : (s.respondOk d).sizeOf sp = s.sizeOf sp := by
  cases sp <;> rfl
@[simp] theorem mem_raise (s : State) (e : ErrCode) (sp : Space) : (s.raise e).mem sp = s.mem sp := by
  cases sp <;> rfl
@[simp] theorem readByte_raise (s : State) (e : ErrCode) (sp : Space) (a : Nat) :
    (s.raise e).readByte sp a = s.readByte sp a := by
  cases sp <;> rfl
@[simp] theorem sizeOf_raise (s : State) (e : ErrCode) (sp : Space) : (s.raise e).sizeOf sp = s.sizeOf sp := by
  cases sp <;> rfl
@[simp] theorem mem_applyReset (s : State) (sp : Space) : (s.applyReset).mem sp = s.mem sp := by
  cases sp <;> rfl
@[simp] theorem readByte_applyReset (s : State) (sp : Space) (a : Nat) :
    (s.applyReset).readByte sp a = s.readByte sp a := by
  cases sp <;> rfl
@[simp] theorem sizeOf_applyReset (s : State) (sp : Space) : (s.applyReset).sizeOf sp = s.sizeOf sp := by
  cases sp <;> rfl
@[simp] theorem sizeOf_buildFrame (s : State) (sp : Space) : (s.buildFrame).sizeOf sp = s.sizeOf sp := by
  cases sp <;> rfl
@[simp] theorem sizeOf_packFrame (s : State) (sp : Space) : (s.packFrame).sizeOf sp = s.sizeOf sp := by
  cases sp <;> rfl
@[simp] theorem sizeOf_unpackFrame (s : State) (sp : Space) : (s.unpackFrame).sizeOf sp = s.sizeOf sp := by
  cases sp <;> rfl
@[simp] theorem sizeOf_unpackPayload (s : State) (sp : Space) : (s.unpackPayload).sizeOf sp = s.sizeOf sp := by
  cases sp <;> rfl
@[simp] theorem sizeOf_setMem (s : State) (sp sp' : Space) (m : Memory) :
    (s.setMem sp m).sizeOf sp' = s.sizeOf sp' := by
  cases sp <;> cases sp' <;> rfl

/-! ### `scramble` -/

@[simp] theorem scramble_k (s : State) (sp : Space) (base n : Nat) : (s.scramble sp base n).k = s.k := by
  cases sp <;> rfl
@[simp] theorem scramble_len (s : State) (sp : Space) (base n : Nat) : (s.scramble sp base n).len = s.len := by
  cases sp <;> rfl
@[simp] theorem scramble_grid (s : State) (sp : Space) (base n : Nat) : (s.scramble sp base n).grid = s.grid := by
  cases sp <;> rfl
@[simp] theorem scramble_esticky (s : State) (sp : Space) (base n : Nat) : (s.scramble sp base n).esticky = s.esticky := by
  cases sp <;> rfl
@[simp] theorem scramble_chMax (s : State) (sp : Space) (base n : Nat) : (s.scramble sp base n).chMax = s.chMax := by
  cases sp <;> rfl
@[simp] theorem scramble_cc (s : State) (sp : Space) (base n : Nat) : (s.scramble sp base n).cc = s.cc := by
  cases sp <;> rfl
@[simp] theorem scramble_inputs (s : State) (sp : Space) (base n : Nat) : (s.scramble sp base n).inputs = s.inputs := by
  cases sp <;> rfl
@[simp] theorem scramble_responses (s : State) (sp : Space) (base n : Nat) : (s.scramble sp base n).responses = s.responses := by
  cases sp <;> rfl
@[simp] theorem scramble_freeNext (s : State) (sp : Space) (base n : Nat) :
    (s.scramble sp base n).freeNext = s.freeNext + n := rfl
@[simp] theorem sizeOf_scramble (s : State) (sp sp' : Space) (base n : Nat) :
    (s.scramble sp base n).sizeOf sp' = s.sizeOf sp' := by
  cases sp <;> cases sp' <;> rfl

/-! ### Bits after `respondOk` -/

@[simp] theorem getBit_respondOk (s : State) (d : Imm) (sp : Space) (j : Nat) :
    (s.respondOk d).getBit sp j = s.getBit sp j := by
  cases sp <;> rfl

/-! ### Derived quantities after the updates -/

@[simp] theorem nch_takeInput (s : State) (rest : List HostInput) : (s.takeInput rest).nch = s.nch := rfl
@[simp] theorem capBits_takeInput (s : State) (rest : List HostInput) : (s.takeInput rest).capBits = s.capBits := rfl
@[simp] theorem total_takeInput (s : State) (rest : List HostInput) : (s.takeInput rest).total = s.total := rfl
@[simp] theorem declaredLen_takeInput (s : State) (rest : List HostInput) :
    (s.takeInput rest).declaredLen = s.declaredLen := rfl
@[simp] theorem nch_complete (s : State) (c : BitVec 8) (d : Imm) : (s.complete c d).nch = s.nch := rfl
@[simp] theorem capBits_complete (s : State) (c : BitVec 8) (d : Imm) : (s.complete c d).capBits = s.capBits := rfl
@[simp] theorem total_complete (s : State) (c : BitVec 8) (d : Imm) : (s.complete c d).total = s.total := rfl
@[simp] theorem declaredLen_complete (s : State) (c : BitVec 8) (d : Imm) :
    (s.complete c d).declaredLen = s.declaredLen := rfl
@[simp] theorem nch_respondOk (s : State) (d : Imm) : (s.respondOk d).nch = s.nch := rfl
@[simp] theorem capBits_respondOk (s : State) (d : Imm) : (s.respondOk d).capBits = s.capBits := rfl
@[simp] theorem total_respondOk (s : State) (d : Imm) : (s.respondOk d).total = s.total := rfl
@[simp] theorem declaredLen_respondOk (s : State) (d : Imm) : (s.respondOk d).declaredLen = s.declaredLen := rfl
@[simp] theorem nch_raise (s : State) (e : ErrCode) : (s.raise e).nch = s.nch := rfl
@[simp] theorem capBits_raise (s : State) (e : ErrCode) : (s.raise e).capBits = s.capBits := rfl
@[simp] theorem total_raise (s : State) (e : ErrCode) : (s.raise e).total = s.total := rfl
@[simp] theorem declaredLen_raise (s : State) (e : ErrCode) : (s.raise e).declaredLen = s.declaredLen := rfl
@[simp] theorem nch_buildFrame (s : State) : s.buildFrame.nch = s.nch := rfl
@[simp] theorem capBits_buildFrame (s : State) : s.buildFrame.capBits = s.capBits := rfl
@[simp] theorem total_buildFrame (s : State) : s.buildFrame.total = s.total := rfl
@[simp] theorem declaredLen_buildFrame (s : State) : s.buildFrame.declaredLen = s.declaredLen := rfl
@[simp] theorem nch_packFrame (s : State) : s.packFrame.nch = s.nch := rfl
@[simp] theorem capBits_packFrame (s : State) : s.packFrame.capBits = s.capBits := rfl
@[simp] theorem total_packFrame (s : State) : s.packFrame.total = s.total := rfl
@[simp] theorem nch_unpackFrame (s : State) : s.unpackFrame.nch = s.nch := rfl
@[simp] theorem capBits_unpackFrame (s : State) : s.unpackFrame.capBits = s.capBits := rfl
@[simp] theorem total_unpackFrame (s : State) : s.unpackFrame.total = s.total := rfl
@[simp] theorem declaredLen_unpackFrame (s : State) : s.unpackFrame.declaredLen = s.declaredLen := rfl
@[simp] theorem nch_unpackPayload (s : State) : s.unpackPayload.nch = s.nch := rfl
@[simp] theorem capBits_unpackPayload (s : State) : s.unpackPayload.capBits = s.capBits := rfl
@[simp] theorem declaredLen_unpackPayload (s : State) : s.unpackPayload.declaredLen = s.declaredLen := rfl

/-! ### Bytes after the stores -/

theorem readByte_setMem (s : State) (sp sp' : Space) (m : Memory) (a : Nat) :
    (s.setMem sp m).readByte sp' a = if sp = sp' then Memory.read sp m a else s.readByte sp' a := by
  unfold State.readByte
  rw [mem_setMem]
  split
  · subst sp'; rfl
  · rfl

/-- WBYTE's store: one byte of one space. -/
theorem readByte_writeByte (s : State) (sp sp' : Space) (a b : Nat) (v : Byte) :
    (s.writeByte sp a v).readByte sp' b = if sp = sp' ∧ a = b then v else s.readByte sp' b := by
  unfold State.writeByte
  rw [readByte_setMem, read_write]
  by_cases h : sp = sp'
  · subst h; simp [State.readByte]
  · simp [h]

/-- SETBIT's store, by bits: one bit of one space. -/
theorem getBit_setBit_state (s : State) (sp sp' : Space) (j j' : Nat) (b : Bool) :
    (s.setBit sp j b).getBit sp' j' = if sp = sp' ∧ j = j' then b else s.getBit sp' j' := by
  unfold State.setBit State.getBit
  rw [mem_setMem]
  by_cases h : sp = sp'
  · subst h; simp [getBit_setBit]
  · simp [h]

/-- SETBIT's store, by bytes. -/
theorem readByte_setBit (s : State) (sp sp' : Space) (j a : Nat) (b : Bool) :
    (s.setBit sp j b).readByte sp' a =
      if sp = sp' ∧ j / 8 = a then withBit (s.readByte sp a) (j % 8) b else s.readByte sp' a := by
  unfold State.setBit Memory.setBit
  rw [readByte_setMem, read_write]
  by_cases h : sp = sp'
  · subst h
    by_cases h2 : j / 8 = a
    · subst h2; simp [State.readByte]
    · simp [h2, State.readByte]
  · simp [h]

/-- A free range: inside it free bytes, outside it every byte as before. -/
theorem readByte_scramble (s : State) (sp sp' : Space) (base n a : Nat) :
    (s.scramble sp base n).readByte sp' a =
      if sp = sp' ∧ base ≤ a ∧ a < base + n then Config.freeByte (s.freeNext + (a - base))
      else s.readByte sp' a := by
  have h1 : (s.scramble sp base n).readByte sp' a =
      (s.setMem sp (Memory.fill sp (fun i => Config.freeByte (s.freeNext + i)) base n (s.mem sp))).readByte sp' a := by
    cases sp <;> cases sp' <;> rfl
  rw [h1, readByte_setMem, read_fill]
  by_cases h : sp = sp'
  · subst h; simp [State.readByte]
  · simp [h]

/-- The memories of the reset state are in canonical form. -/
theorem wf_reset (sp : Space) : Memory.wf sp (State.reset.mem sp) := by
  cases sp <;> exact wf_nil _

/-- A free range keeps the canonical form of every memory. -/
theorem wf_scramble {s : State} {sp sp' : Space} (base n : Nat) (h : Memory.wf sp' (s.mem sp')) :
    Memory.wf sp' ((s.scramble sp base n).mem sp') := by
  have hm : (s.scramble sp base n).mem sp' =
      (s.setMem sp (Memory.fill sp (fun i => Config.freeByte (s.freeNext + i)) base n (s.mem sp))).mem sp' := by
    cases sp <;> cases sp' <;> rfl
  rw [hm, mem_setMem]
  split
  · rename_i hsp
    subst hsp
    exact wf_fill h _ _ _
  · exact h

end Sys2Proof.Machine
end

