-- ==== Sys2Proof/Laws/Codec.lean ====
section
/-! SUPPORT. Framing, packing and unpacking: one lemma a function, by bytes and by bits. -/

namespace Sys2Proof.Machine

/-! ### The frame -/

/-- FRM after the frame has been built: the framed payload, and beyond it every byte as before. -/
theorem read_buildFrame (s : State) (a : Nat) :
    Memory.read .frm s.buildFrame.frm a =
      if a < s.len.toNat + 4 then frameByte s.len (s.readByte .pay) a else s.readByte .frm a := by
  rw [buildFrame_frm, read_fill, read_fill]
  unfold frameByte
  by_cases h4 : a < 4
  · have h1 : ¬ (4 ≤ a ∧ a < 4 + s.len.toNat) := by omega
    have h2 : 0 ≤ a ∧ a < 0 + 4 := by omega
    have h3 : a < s.len.toNat + 4 := by omega
    rw [if_neg h1, if_pos h2, if_pos h3, if_pos h4, Nat.sub_zero]
  · by_cases hl : a < s.len.toNat + 4
    · have h1 : 4 ≤ a ∧ a < 4 + s.len.toNat := by omega
      rw [if_pos h1, if_pos hl, if_neg h4]
    · have h1 : ¬ (4 ≤ a ∧ a < 4 + s.len.toNat) := by omega
      have h2 : ¬ (0 ≤ a ∧ a < 0 + 4) := by omega
      rw [if_neg h1, if_neg h2, if_neg hl]
      rfl

/-! ### Packing -/

/-- A channel bit after the first `n` stream bits have been packed: position `i` of channel `c` holds stream bit
c·k + i where there is one, and its old value everywhere else (44_lsbcodec.md R111, R112). -/
theorem bitOf_packBits {k : Nat} (hk : 0 < k) (hk8 : k ≤ 8) (frm ch : Memory) (n c i : Nat) (hi : i < 8) :
    bitOf (Memory.read .ch (packBits k frm n ch) c) i =
      if i < k ∧ c * k + i < n then Memory.getBit .frm frm (c * k + i) else bitOf (Memory.read .ch ch c) i := by
  induction n with
  | zero => simp [packBits]
  | succ n ih =>
    have hr : n % k < k := Nat.mod_lt _ hk
    have hn : n / k * k + n % k = n := Nat.div_add_mod' n k
    simp only [packBits, read_write]
    by_cases hc : n / k = c
    · subst hc
      rw [if_pos rfl, bitOf_withBit _ _ _ _ hi (by omega), ih]
      by_cases hin : i = n % k
      · have h1 : i < k ∧ n / k * k + i < n + 1 := by omega
        rw [if_pos hin, if_pos h1, hin, hn]
      · rw [if_neg hin]
        have : (i < k ∧ n / k * k + i < n) ↔ (i < k ∧ n / k * k + i < n + 1) := by omega
        simp only [this]
    · rw [if_neg hc, ih]
      have : (i < k ∧ c * k + i < n) ↔ (i < k ∧ c * k + i < n + 1) := by
        constructor
        · omega
        · rintro ⟨h1, h2⟩
          refine ⟨h1, ?_⟩
          rcases Nat.lt_or_ge (c * k + i) n with h | h
          · exact h
          · have : c * k + i = n := by omega
            exfalso; apply hc
            rw [← this, Nat.mul_comm, Nat.mul_add_div hk, Nat.div_eq_of_lt h1, Nat.add_zero]
      simp only [this]

/-- A channel after packing is the carrier's byte where no stream bit falls into it. -/
theorem read_packBits_of_le {k : Nat} (hk : 0 < k) (hk8 : k ≤ 8) (frm ch : Memory) (n c : Nat) (h : n ≤ c * k) :
    Memory.read .ch (packBits k frm n ch) c = Memory.read .ch ch c :=
  byte_ext fun i hi => by rw [bitOf_packBits hk hk8 _ _ _ _ _ hi, if_neg (by omega)]

theorem wf_packBits {k : Nat} (frm : Memory) (n : Nat) {ch : Memory} (h : Memory.wf .ch ch) :
    Memory.wf .ch (packBits k frm n ch) := by
  induction n with
  | zero => exact h
  | succ n ih => exact wf_write ih _ _

theorem within_packBits {k : Nat} (hk : 0 < k) (frm : Memory) (n : Nat) {ch : Memory} {size : Nat}
    (h : Memory.within size ch) (hn : n ≤ size * k) : Memory.within size (packBits k frm n ch) := by
  induction n with
  | zero => exact h
  | succ n ih =>
    refine within_write (ih (by omega)) ?_ _
    rw [Nat.div_lt_iff_lt_mul hk]
    omega

/-- Packing lists no channel that no stream bit falls into, at any width. -/
theorem lookup_packBits_of_le {k : Nat} (hk : 0 < k) (frm ch : Memory) {n c : Nat} (h : n ≤ c * k) :
    Memory.lookup (packBits k frm n ch) c = Memory.lookup ch c := by
  induction n with
  | zero => rfl
  | succ n ih =>
    have hlt : n / k < c := (Nat.div_lt_iff_lt_mul hk).mpr h
    rw [packBits, lookup_write_of_ne (Nat.ne_of_lt hlt), ih (by omega)]

/-! ### Unpacking -/

/-- Unpacking reads only positions below K of the channels it names (44_lsbcodec.md R115). -/
theorem streamByte_congr {k : Nat} {ch ch' : Memory} {n : Nat}
    (h : ∀ j, 8 * n ≤ j → j < 8 * n + 8 → streamBit ch k j = streamBit ch' k j) :
    streamByte ch k n = streamByte ch' k n :=
  byteOfBits_congr fun i hi => h _ (by omega) (by omega)

/-- A stream bit of packed channels is the frame's bit. -/
theorem streamBit_packBits {k : Nat} (hk : 0 < k) (hk8 : k ≤ 8) (frm ch : Memory) {n j : Nat} (hj : j < n) :
    streamBit (packBits k frm n ch) k j = Memory.getBit .frm frm j := by
  have hr : j % k < k := Nat.mod_lt _ hk
  have hd : j / k * k + j % k = j := Nat.div_add_mod' j k
  rw [streamBit, bitOf_packBits hk hk8 _ _ _ _ _ (by omega), hd, if_pos ⟨hr, hj⟩]

/-- A stream byte of packed channels is the frame's byte. -/
theorem streamByte_packBits {k : Nat} (hk : 0 < k) (hk8 : k ≤ 8) (frm ch : Memory) {n b : Nat} (hb : 8 * (b + 1) ≤ n) :
    streamByte (packBits k frm n ch) k b = Memory.read .frm frm b := by
  rw [← byteOfBits_bitOf (Memory.read .frm frm b)]
  refine byteOfBits_congr fun i hi => ?_
  rw [streamBit_packBits hk hk8 frm ch (by omega), Memory.getBit]
  rw [show (8 * b + i) / 8 = b by omega, show (8 * b + i) % 8 = i by omega]

/-- FRM after unpacking: the stream bytes of the frame, and beyond it every byte as before. -/
theorem read_unpackFrame (s : State) (a : Nat) :
    Memory.read .frm s.unpackFrame.frm a =
      if a < s.declaredLen.toNat + 4 then streamByte s.ch s.k.toNat a else s.readByte .frm a := by
  rw [unpackFrame_frm, read_fill]
  simp [State.readByte, State.mem]

/-- PAY after EXTRACT's writes: the payload bytes of the stream, and beyond them every byte as before. -/
theorem read_unpackPayload (s : State) (a : Nat) :
    Memory.read .pay s.unpackPayload.pay a =
      if a < s.declaredLen.toNat then streamByte s.ch s.k.toNat (4 + a) else s.readByte .pay a := by
  rw [unpackPayload_pay, read_fill]
  by_cases h : a < s.declaredLen.toNat
  · have : (0 ≤ a ∧ a < 0 + s.declaredLen.toNat) := by omega
    rw [if_pos this, if_pos h, Nat.sub_zero]
    show Memory.read .frm s.unpackFrame.frm (4 + a) = _
    rw [read_unpackFrame, if_pos (by omega)]
  · have : ¬ (0 ≤ a ∧ a < 0 + s.declaredLen.toNat) := by omega
    rw [if_neg this, if_neg h]
    rfl

end Sys2Proof.Machine
end

