-- ==== Sys2Proof/Laws/PerInstr.lean ====
section
/-! SUPPORT. The family of statements made once for each command: the encoded word names the command's row of the opcode map
and leaves every field its format does not use zero (30_encoding.md R51, R52, R55). -/

namespace Sys2Proof.Laws.Encoding

/-- OPC of the encoded word is the command's, and the fields its format does not use are zero. -/
def Statement (i : Instr) : Prop :=
  Opcode.ofByte (opcOf (encode i)) = some i.opcode ∧ i.opcode.format.unusedZero (encode i) = true

/-- OPC of a word made from an operation code is that operation. -/
theorem ofByte_opcOf (o : Opcode) (a b : Byte) (m : Imm) : Opcode.ofByte (opcOf (makeWord o.toByte a b m)) = some o := by
  rw [Machine.opcOf_makeWord]
  cases o <;> rfl

theorem nop : Statement .nop := ⟨ofByte_opcOf .nop .., by decide⟩

theorem rreg (n : Reg) : Statement (.rreg n) := ⟨ofByte_opcOf .rreg .., by cases n <;> decide⟩

theorem wreg (n : Reg) (v : Imm) : Statement (.wreg n v) :=
  ⟨ofByte_opcOf .wreg .., by simp [encode, Instr.opcode, Opcode.format, Format.unusedZero, Machine.bOf_makeWord]⟩

theorem rbyte (sp : Space) (a : Imm) : Statement (.rbyte sp a) :=
  ⟨ofByte_opcOf .rbyte .., by simp [encode, Instr.opcode, Opcode.format, Format.unusedZero, Machine.bOf_makeWord]⟩

theorem wbyte (sp : Space) (d : Byte) (a : Imm) : Statement (.wbyte sp d a) := ⟨ofByte_opcOf .wbyte .., rfl⟩

theorem getbit (sp : Space) (j : Imm) : Statement (.getbit sp j) :=
  ⟨ofByte_opcOf .getbit .., by simp [encode, Instr.opcode, Opcode.format, Format.unusedZero, Machine.bOf_makeWord]⟩

theorem setbit (sp : Space) (b : Bool) (j : Imm) : Statement (.setbit sp b j) :=
  ⟨ofByte_opcOf .setbit .., by
    simp only [encode, Instr.opcode, Opcode.format, Format.unusedZero, Machine.bOf_makeWord]
    cases b <;> decide⟩

theorem frame : Statement .frame := ⟨ofByte_opcOf .frame .., by decide⟩

theorem plan : Statement .plan := ⟨ofByte_opcOf .plan .., by decide⟩

theorem embed : Statement .embed := ⟨ofByte_opcOf .embed .., by decide⟩

theorem extract : Statement .extract := ⟨ofByte_opcOf .extract .., by decide⟩

end Sys2Proof.Laws.Encoding
end

