-- ==== Sys2Proof/Laws/Step.lean ====
section
/-! SUPPORT. What a step, a run, a command and an abandoned command can do, said once. -/

namespace Sys2Proof.Machine

/-! ### Runs and steps -/

/-- A run of one more step, for any machine. -/
theorem run_next (M : Host.Core) (n : Nat) (s t : M.State) (h : M.step s = .next t) :
    Host.Core.run M (n + 1) s = Host.Core.run M n t := by
  simp only [Host.Core.run, h]

theorem step_nil {s : State} (h : s.inputs = []) : step s = .next s := by simp only [step, h]

theorem step_command {s : State} {w : Word} {rest : List HostInput} {i : Instr} (h : s.inputs = .command w :: rest)
    (hd : decode w = .ok i) : step s = exec i (s.takeInput rest) := by simp only [step, h, hd]

theorem step_illegal {s : State} {w : Word} {rest : List HostInput} {why : Illegal}
    (h : s.inputs = .command w :: rest) (hd : decode w = .error why) :
    step s = .next ((s.takeInput rest).raise .illegalCommand) := by
  simp only [step, h, hd, execIllegal]

theorem step_reset {s : State} {rest : List HostInput} (h : s.inputs = .reset :: rest) :
    step s = .next (s.takeInput rest).applyReset := by simp only [step, h]

theorem step_resetDuring {s : State} {w : Word} {rest : List HostInput} (h : s.inputs = .resetDuring w :: rest) :
    step s = .next ((s.takeInput rest).abandon w) := by simp only [step, h]

/-! ### Commands that may fail, where they succeed -/

theorem exec_rbyte_ok {s : State} {sp : Space} {a : Imm} (h : a.toNat < s.sizeOf sp) :
    exec (.rbyte sp a) s = .next (s.respondOk ((s.readByte sp a.toNat).setWidth 40)) := by
  simp only [exec, execRbyte, if_neg (Nat.not_le.mpr h)]

theorem exec_wbyte_ok {s : State} {sp : Space} {d : Byte} {a : Imm} (h : a.toNat < s.sizeOf sp) :
    exec (.wbyte sp d a) s = .next ((s.writeByte sp a.toNat d).respondOk 0) := by
  simp only [exec, execWbyte, if_neg (Nat.not_le.mpr h)]

theorem exec_getbit_ok {s : State} {sp : Space} {j : Imm} (h : j.toNat < 8 * s.sizeOf sp) :
    exec (.getbit sp j) s = .next (s.respondOk ((BitVec.ofBool (s.getBit sp j.toNat)).setWidth 40)) := by
  simp only [exec, execGetbit, if_neg (Nat.not_le.mpr h)]

theorem exec_setbit_ok {s : State} {sp : Space} {b : Bool} {j : Imm} (h : j.toNat < 8 * s.sizeOf sp) :
    exec (.setbit sp b j) s = .next ((s.setBit sp j.toNat b).respondOk 0) := by
  simp only [exec, execSetbit, if_neg (Nat.not_le.mpr h)]

theorem exec_plan_ok {s : State} (h : s.nch ≠ 0) (hk : minK s.len.toNat s.nch ≤ 8) :
    exec .plan s = .next (({ s with k := BitVec.ofNat 4 (minK s.len.toNat s.nch) }).respondOk
      (BitVec.ofNat 40 (minK s.len.toNat s.nch))) := by
  simp only [exec, execPlan, if_neg h, if_neg (Nat.not_lt.mpr hk)]

theorem exec_embed_ok {s : State} (h : s.nch ≠ 0) (hc : s.total ≤ s.capBits) :
    exec .embed s = .next (s.packFrame.respondOk (BitVec.ofNat 40 (ceilDiv s.total s.k.toNat))) := by
  simp only [exec, execEmbed, if_neg h, if_neg (Nat.not_lt.mpr hc)]

theorem exec_extract_ok {s : State} (h : s.nch ≠ 0) (h32 : 32 ≤ s.capBits)
    (hc : totalBits s.declaredLen.toNat ≤ s.capBits) :
    exec .extract s = .next (s.unpackPayload.respondOk (s.declaredLen.setWidth 40)) := by
  simp only [exec, execExtract, if_neg h, if_neg (Nat.not_lt.mpr h32), if_neg (Nat.not_lt.mpr hc)]

/-! ### What any command can do -/

/-- A command answers: it succeeds with some DATA and ESTICKY as it was, or it is `raise` of one error; either way the index
advances by 1 and no input and no free byte is taken. -/
theorem exec_cases {i : Instr} {s t : State} (h : exec i s = .next t) :
    ((∃ d, t.responses = s.responses ++ [responseWord 0 d] ∧ t.esticky = s.esticky) ∨ ∃ e, t = s.raise e) ∧
      t.cc = s.cc + 1 ∧ t.inputs = s.inputs ∧ t.freeNext = s.freeNext := by
  cases i with
  | wreg n v =>
    cases n <;>
      (simp only [exec, execWreg, Host.Outcome.next.injEq, State.writeK, State.writeLen, State.writeGrid] at h
       repeat' split at h) <;>
      subst h <;> first | exact ⟨.inr ⟨_, rfl⟩, rfl, rfl, rfl⟩ | exact ⟨.inl ⟨_, rfl, rfl⟩, rfl, rfl, rfl⟩
  | wbyte sp d a =>
    simp only [exec, execWbyte] at h
    split at h <;> cases h
    · exact ⟨.inr ⟨_, rfl⟩, rfl, rfl, rfl⟩
    · cases sp <;> exact ⟨.inl ⟨_, rfl, rfl⟩, rfl, rfl, rfl⟩
  | setbit sp d a =>
    simp only [exec, execSetbit] at h
    split at h <;> cases h
    · exact ⟨.inr ⟨_, rfl⟩, rfl, rfl, rfl⟩
    · cases sp <;> exact ⟨.inl ⟨_, rfl, rfl⟩, rfl, rfl, rfl⟩
  | _ =>
    simp only [exec, execNop, execRreg, execRbyte, execGetbit, execFrame, execPlan, execEmbed, execExtract] at h
    repeat' split at h
    all_goals
      cases h
      first | exact ⟨.inr ⟨_, rfl⟩, rfl, rfl, rfl⟩ | exact ⟨.inl ⟨_, rfl, rfl⟩, rfl, rfl, rfl⟩

/-! ### Abandoned commands -/

/-- Free ranges touch no register and no port. -/
theorem scrambleAll_keeps (s : State) (rs : List ByteRange) :
    (s.scrambleAll rs).chMax = s.chMax ∧ (s.scrambleAll rs).inputs = s.inputs ∧
      (s.scrambleAll rs).responses = s.responses := by
  induction rs generalizing s with
  | nil => exact ⟨rfl, rfl, rfl⟩
  | cons r rs ih => simpa [State.scrambleAll] using ih (s.scramble r.space r.base r.n)

/-- Outside the free ranges every byte is as before. -/
theorem readByte_scrambleAll {s : State} {rs : List ByteRange} {sp : Space} {a : Nat}
    (h : ∀ r ∈ rs, ¬(r.space = sp ∧ r.base ≤ a ∧ a < r.base + r.n)) :
    (s.scrambleAll rs).readByte sp a = s.readByte sp a := by
  induction rs generalizing s with
  | nil => rfl
  | cons r rs ih =>
    rw [State.scrambleAll, ih fun r' hr' => h r' (List.mem_cons_of_mem _ hr'), readByte_scramble,
      if_neg (h r List.mem_cons_self)]

/-- What an abandoned command leaves: the reset registers, and the ports and the response log as they were. -/
theorem abandon_registers (s : State) (w : Word) :
    (s.abandon w).k = 1 ∧ (s.abandon w).len = 0 ∧ (s.abandon w).grid = 0 ∧ (s.abandon w).esticky = 0 ∧
      (s.abandon w).cc = 0 ∧ (s.abandon w).chMax = s.chMax ∧ (s.abandon w).inputs = s.inputs ∧
      (s.abandon w).responses = s.responses := by
  unfold State.abandon
  split
  · rename_i i _
    obtain ⟨h1, h2, h3⟩ := scrambleAll_keeps s (s.writeRanges i)
    exact ⟨rfl, rfl, rfl, rfl, rfl, h1, h2, h3⟩
  · exact ⟨rfl, rfl, rfl, rfl, rfl, rfl, rfl, rfl⟩

/-! ### Filling -/

/-- Only the values of the filled indices matter. -/
theorem fill_congr {sp : Space} {f g : Nat → Byte} {base n : Nat} {m : Memory} (h : ∀ i < n, f i = g i) :
    Memory.fill sp f base n m = Memory.fill sp g base n m := by
  induction n with
  | zero => rfl
  | succ n ih => rw [Memory.fill, Memory.fill, ih fun i hi => h i (by omega), h n (by omega)]

end Sys2Proof.Machine
end

