-- ==== Sys2Proof/Tests/Slice0.lean ====
section
/-! SUPPORT. Tests: the well-formedness checks, words written out from the spec's encodings, one step for each command with
values of spec/95_test_vectors.md, and for every obligation with hypotheses a state and operands that meet them. -/

namespace Sys2Proof.Tests

open Sys2Proof Machine

/-! ### Helpers -/

/-- A small block: CH_MAX = 12, nothing written, nothing sent. -/
def block (k len grid : Nat) : State where
  k := BitVec.ofNat 4 k
  len := BitVec.ofNat 32 len
  grid := BitVec.ofNat 32 grid
  esticky := 0
  chMax := 12
  pay := []
  frm := []
  ch := []
  cc := 0
  inputs := []
  responses := []
  freeNext := 0

/-- Channels 0, 1, ... hold the given bytes. -/
def bytes (vs : List Nat) : Memory := (vs.zipIdx).map fun p => (p.2, BitVec.ofNat 8 p.1)

/-- The state a step leaves. -/
def after (o : Host.Outcome State Fault Refusal) : Option State :=
  match o with
  | .next t => some t
  | .fault _ => none
  | .refused _ => none

/-- The response to one command word. -/
def answer (s : State) (w : Word) : Option Word := (after (step (s.load [w]))).bind fun t => t.responses.getLast?

/-- What one command word leaves in a field. -/
def left {α : Type} (f : State → α) (s : State) (w : Word) : Option α := (after (step (s.load [w]))).map f

/-! ### Well-formedness (30_encoding.md R53, R56 item 4) -/

theorem test_wf_refuses_wreg_esticky : Instr.wellFormed (.wreg .esticky 0) = false := by decide

theorem test_wf_refuses_wreg_chmax : Instr.wellFormed (.wreg .chmax 304) = false := by decide

theorem test_wf_accepts_wreg_grid : Instr.wellFormed (.wreg .grid 0x000A000A) = true := by decide

/-! ### Decoding: words of 30_encoding.md section 8 and of 95_test_vectors.md V1 to V8 -/

theorem test_decode_nop : decode 0x0000000000000000 = .ok .nop := by decide

theorem test_decode_rreg : decode 0x0104000000000000 = .ok (.rreg .chmax) := by decide

theorem test_decode_wreg : decode 0x0202000100000000 = .ok (.wreg .grid 0x100000000) := by decide

theorem test_decode_rbyte : decode 0x030100000000012F = .ok (.rbyte .frm 303) := by decide

theorem test_decode_wbyte : decode 0x0402F6000000000D = .ok (.wbyte .ch 0xF6 13) := by decide

theorem test_decode_getbit : decode 0x1000000000000960 = .ok (.getbit .pay 2400) := by decide

theorem test_decode_setbit : decode 0x110201000000097F = .ok (.setbit .ch true 2431) := by decide

theorem test_decode_frame : decode 0x2000000000000000 = .ok .frame := by decide

theorem test_decode_plan : decode 0x2100000000000000 = .ok .plan := by decide

theorem test_decode_embed : decode 0x2200000000000000 = .ok .embed := by decide

theorem test_decode_extract : decode 0x2300000000000000 = .ok .extract := by decide

/-- The illegal words of V1, one for each item of 30_encoding.md R56 and one at each boundary. -/
theorem test_decode_illegal :
    decode 0xFFFFFFFFFFFFFFFF = .error .opcode ∧ decode 0x2400000000000000 = .error .opcode ∧
    decode 0x0000000000000001 = .error .unusedField ∧ decode 0x0100000000000001 = .error .unusedField ∧
    decode 0x0200010000000001 = .error .unusedField ∧ decode 0x1100020000000000 = .error .unusedField ∧
    decode 0x0105000000000000 = .error .register ∧ decode 0x0205000000000000 = .error .register ∧
    decode 0x0203000000000000 = .error .readOnly ∧ decode 0x0204000000000000 = .error .readOnly ∧
    decode 0x0303000000000000 = .error .space := by decide

/-- V3. -/
theorem test_encode_setbit : encode (.setbit .pay true 11) = 0x110001000000000B := by decide

/-! ### One step for each command (95_test_vectors.md V1 to V8, P3, P4) -/

theorem test_nop : answer (block 1 0 0) 0x0000000000000000 = some 0 := by decide

/-- V2. -/
theorem test_rreg_k : answer (block 1 0 0) 0x0100000000000000 = some 1 := by decide

/-- P3 line 24. -/
theorem test_rreg_grid : answer (block 1 0 0x00070000) 0x0102000000000000 = some 0x0000000000070000 := by decide

/-- V2: a value too wide is refused, not truncated. -/
theorem test_wreg_k_too_wide :
    answer (block 8 0 0) 0x0200000000000010 = some 0x0600000000000000 ∧
    left State.k (block 8 0 0) 0x0200000000000010 = some 8 ∧
    left State.esticky (block 8 0 0) 0x0200000000000010 = some 0x0040 := by decide

/-- V8: a grid without pixels is legal. -/
theorem test_wreg_grid_empty :
    answer (block 1 0 0) 0x02020000FFFF0000 = some 0 ∧
    left State.grid (block 1 0 0) 0x02020000FFFF0000 = some 0xFFFF0000 := by decide

/-- V3. -/
theorem test_rbyte : answer { block 1 0 0 with pay := bytes [0x08, 0x48, 0x7E] } 0x0300000000000002 = some 0x7E := by decide

/-- V8, with CH_MAX = 12: PAY ends at CH_MAX − 4. -/
theorem test_rbyte_range : answer (block 1 0 0) 0x0300000000000008 = some 0x0700000000000000 := by decide

/-- P4 line 3. -/
theorem test_wbyte (t : State) (h : exec (.wbyte .pay 0xFF 2) (block 1 0 0) = .next t) : t.readByte .pay 2 = 0xFF := by
  rw [exec_wbyte_ok (by decide)] at h
  cases h
  rw [readByte_respondOk, readByte_writeByte]
  decide

/-- V8, with CH_MAX = 12. -/
theorem test_wbyte_range : answer (block 1 0 0) 0x04021100000000FF = some 0x0700000000000000 := by decide

/-- P4 line 19: bit 46 is bit 6 of byte 5. -/
theorem test_getbit :
    answer { block 1 0 0 with frm := bytes [0, 0, 0, 3, 0x08, 0x48, 0x7E] } 0x100100000000002E = some 1 := by decide

/-- P4 line 20. -/
theorem test_getbit_zero :
    answer { block 1 0 0 with frm := bytes [0, 0, 0, 3, 0x08, 0x48, 0x7E] } 0x1001000000000030 = some 0 := by decide

/-- V3: SETBIT PAY, 16, 0 turns FF into FE. -/
theorem test_setbit (t : State)
    (h : exec (.setbit .pay false 16) { block 1 0 0 with pay := bytes [0, 0, 0xFF] } = .next t) :
    t.readByte .pay 2 = 0xFE := by
  rw [exec_setbit_ok (by decide)] at h
  cases h
  rw [readByte_respondOk, readByte_setBit]
  decide

/-- V8, with CH_MAX = 12: bit 96 is beyond CH. -/
theorem test_setbit_range : answer (block 1 0 0) 0x1102010000000060 = some 0x0700000000000000 := by decide

/-- V4. -/
theorem test_frame_response : answer (block 1 3 0) 0x2000000000000000 = some 7 := by decide

/-- V4: LEN = 3 is 00 00 00 03, the payload follows. -/
theorem test_frame (t : State)
    (h : exec .frame { block 1 3 0 with pay := bytes [0x08, 0x48, 0x7E] } = .next t) :
    (List.range 7).map (t.readByte .frm) = [0x00, 0x00, 0x00, 0x03, 0x08, 0x48, 0x7E] := by
  cases h
  simp only [State.readByte, State.mem, respondOk_frm, read_buildFrame, List.range, List.range.loop, List.map]
  decide

/-- V5: LEN = 8, 4 × 1: N divides T, and the answer is 8, not 9. -/
theorem test_plan :
    answer (block 1 8 0x00010004) 0x2100000000000000 = some 8 ∧
    left State.k (block 1 8 0x00010004) 0x2100000000000000 = some 8 := by decide

/-- V5: LEN = 0, 1 × 1. -/
theorem test_plan_fails :
    answer (block 1 0 0x00010001) 0x2100000000000000 = some 0x0100000000000000 ∧
    left State.k (block 1 0 0x00010001) 0x2100000000000000 = some 1 := by decide

/-- V6e: the empty payload in 2 × 2 at K = 3: channel 10 loses positions 0 and 1 only, channel 11 nothing. -/
theorem test_embed (t : State)
    (h : exec .embed { block 3 0 0x00020002 with ch := bytes (List.replicate 12 0xFF) } = .next t) :
    t.readByte .ch 0 = 0xF8 ∧ t.readByte .ch 10 = 0xFC ∧ t.readByte .ch 11 = 0xFF := by
  rw [exec_embed_ok (by decide) (by decide)] at h
  cases h
  simp only [State.readByte, State.mem, respondOk_ch, packFrame_ch]
  have hb := fun c i (hi : i < 8) => bitOf_packBits (k := 3) (by decide) (by decide)
    ({ block 3 0 0x00020002 with ch := bytes (List.replicate 12 0xFF) } : State).buildFrame.frm
    (bytes (List.replicate 12 0xFF)) 32 c i hi
  refine ⟨byte_ext fun i hi => (hb _ i hi).trans ?_, byte_ext fun i hi => (hb _ i hi).trans ?_,
    byte_ext fun i hi => (hb _ i hi).trans ?_⟩ <;>
    simp only [Memory.getBit, read_buildFrame] <;> interval_cases i <;> decide

/-- V6f. -/
theorem test_embed_fails : answer (block 8 0 0x00010001) 0x2200000000000000 = some 0x0200000000000000 := by decide

/-- V6d read back: K = 8 is a byte copy. -/
theorem test_extract (t : State)
    (h : exec .extract { block 8 0 0x00010002 with ch := bytes [0, 0, 0, 2, 0x48, 0x69] } = .next t) :
    t.len = 2 ∧ t.readByte .pay 0 = 0x48 ∧ t.readByte .pay 1 = 0x69 ∧ t.readByte .frm 3 = 0x02 := by
  rw [exec_extract_ok (by decide) (by decide) (by decide)] at h
  cases h
  simp only [respondOk_len, unpackPayload_len, State.readByte, State.mem, respondOk_pay, respondOk_frm,
    unpackPayload_frm, read_unpackPayload, read_unpackFrame]
  decide

/-- V7d, in a 2 × 2 grid at K = 8. -/
theorem test_extract_overflow :
    answer { block 8 0 0x00020002 with ch := bytes (List.replicate 12 0xFF) } 0x2300000000000000 =
      some 0x0400000000000000 := by decide

/-! ### The assembler (30_encoding.md R59, R60) -/

theorem test_assemble_setgrid : assemble (.setgrid 10 10) = some [0x02020000000A000A] := by decide

theorem test_assemble_ldpay :
    assemble (.ldpay [0x48, 0x69]) = some [0x0400480000000000, 0x0400690000000001, 0x0201000000000002] := by decide

theorem test_read_line :
    readLine "WBYTE CH, 13, 0xF6 ; the last channel".toList = some [.wbyte 2 13 0xF6] := by decide

/-! ### Reset -/

/-- The first step after reset takes the word that withFetchWord gives the block: WREG K, 3. -/
theorem test_fetch : (after (step (State.reset.withFetchWord 64 0x0200000000000003))).map (fun t => t.k) = some 3 := by decide

/-! ### Witnesses: for each obligation with hypotheses, a state and operands that meet them -/

theorem test_witness_OpcodeTableSelectsTheCommand :
    (⟨.rreg, 0x0100000000000000, 0xFF00FFFFFFFFFFFF, some 4⟩ : Row) ∈ opcodeTable ∧
    ∀ r ∈ opcodeTable, opcOf r.pattern ≠ opcOf 0x0500000000000000 := by decide

/-- One illegal word for each item of the list, at its boundary; the legal words beside them decode. -/
theorem test_witness_IllegalWordsCompleteWithIllegalCommand :
    ((block 1 0 0).load [0x0105000000000000]).inputs = .command 0x0105000000000000 :: [] ∧
    decode 0x0105000000000000 = .error .register ∧ decode 0x0104000000000000 = .ok (.rreg .chmax) ∧
    decode 0x0203000000000000 = .error .readOnly ∧ decode 0x0202000000000000 = .ok (.wreg .grid 0) ∧
    decode 0x0403000000000000 = .error .space ∧ decode 0x0402000000000000 = .ok (.wbyte .ch 0 0) ∧
    decode 0x1100020000000000 = .error .unusedField ∧ decode 0x1100010000000000 = .ok (.setbit .pay true 0) ∧
    decode 0x0300010000000000 = .error .unusedField ∧ decode 0x0101000000000001 = .error .unusedField ∧
    decode 0x2100000000000001 = .error .unusedField ∧ decode 0x0500000000000000 = .error .opcode := by decide

theorem test_witness_DecodeOfEncode : Instr.wellFormed (.setbit .ch true 0xFFFFFFFFFF) = true := by decide

theorem test_witness_EncodeOfDecode : decode 0x1102010000000000 = .ok (.setbit .ch true 0) := by decide

theorem test_witness_StepRunsTheDecodedCommand :
    ((block 1 0 0).load [0x2000000000000000]).inputs = .command 0x2000000000000000 :: [] ∧
    decode 0x2000000000000000 = .ok .frame := by decide

theorem test_witness_IdleBlockHoldsItsState : (block 1 0 0).inputs = [] := by decide

theorem test_witness_OneResponsePerCommand :
    ((block 1 0 0).load [0xFFFFFFFFFFFFFFFF]).inputs = .command 0xFFFFFFFFFFFFFFFF :: [] := by decide

theorem test_witness_NopChangesNothing :
    opcOf 0x0000000000000001 = 0x00 ∧ (0x0000000000000001 : Word) ≠ 0 := by decide

theorem test_witness_RregReturnsTheRegister :
    opcOf 0x0104000000000000 = 0x01 ∧ decode 0x0104000000000000 = .ok (.rreg .chmax) := by decide

/-- Each clause at the ends of its range: 1 and 8, 0 and 9; 8 and 9; 12 channels and 15, 2^32 − 1 and 2^32. -/
theorem test_witness_WregWritesLegalValuesOnly :
    (block 1 0 0).chMax.toNat ≤ 4294967299 ∧
    (1 ≤ (8 : Imm).toNat ∧ (8 : Imm).toNat ≤ 8) ∧ ¬(1 ≤ (9 : Imm).toNat ∧ (9 : Imm).toNat ≤ 8) ∧
    (8 : Imm).toNat ≤ (block 1 0 0).chMax.toNat - 4 ∧ ¬(9 : Imm).toNat ≤ (block 1 0 0).chMax.toNat - 4 ∧
    3 * ((0x00020002 : Imm).toNat % 65536) * ((0x00020002 : Imm).toNat / 65536) ≤ (block 1 0 0).chMax.toNat ∧
    ¬3 * ((0x00010005 : Imm).toNat % 65536) * ((0x00010005 : Imm).toNat / 65536) ≤ (block 1 0 0).chMax.toNat ∧
    ¬(0x100000000 : Imm).toNat < 2 ^ 32 ∧
    opcOf 0x0202000000000000 = 0x02 ∧ decode 0x0202000000000000 = .ok (.wreg .grid 0) := by decide

/-- The last address of PAY and the first beyond it. -/
theorem test_witness_RbyteReturnsTheByte :
    (7 : Imm).toNat < (block 1 0 0).sizeOf .pay ∧ ¬(8 : Imm).toNat < (block 1 0 0).sizeOf .pay ∧
    opcOf 0x0302000000000019 = 0x03 ∧ decode 0x0302000000000019 = .ok (.rbyte .ch 25) := by decide

/-- The last address of CH and the first beyond it. -/
theorem test_witness_WbyteWritesOneByte :
    (11 : Imm).toNat < (block 1 0 0).sizeOf .ch ∧ ¬(12 : Imm).toNat < (block 1 0 0).sizeOf .ch ∧
    opcOf 0x0400690000000001 = 0x04 ∧ decode 0x0400690000000001 = .ok (.wbyte .pay 0x69 1) := by decide

theorem test_witness_ReadingCommandsChangeNothing :
    exec .nop (block 1 0 0) = .next ((block 1 0 0).respondOk 0) ∧
    exec (.rreg .k) (block 1 0 0) = .next ((block 1 0 0).respondOk 1) ∧
    exec (.rbyte .pay 8) (block 1 0 0) = .next ((block 1 0 0).raise .addrRange) ∧
    exec (.getbit .frm 96) (block 1 0 0) = .next ((block 1 0 0).raise .addrRange) ∧
    Responded (block 1 0 0) ((block 1 0 0).respondOk 1) 0 1 := ⟨rfl, rfl, rfl, rfl, rfl, rfl⟩

/-- The last bit of FRM and the first beyond it. -/
theorem test_witness_GetbitReturnsTheBit :
    (95 : Imm).toNat < 8 * (block 1 0 0).sizeOf .frm ∧ ¬(96 : Imm).toNat < 8 * (block 1 0 0).sizeOf .frm ∧
    opcOf 0x1001000000000019 = 0x10 ∧ decode 0x1001000000000019 = .ok (.getbit .frm 25) := by decide

/-- The last bit of PAY and the first beyond it; both values of B. -/
theorem test_witness_SetbitWritesOneBit :
    (63 : Imm).toNat < 8 * (block 1 0 0).sizeOf .pay ∧ ¬(64 : Imm).toNat < 8 * (block 1 0 0).sizeOf .pay ∧
    opcOf 0x1100010000000003 = 0x11 ∧ decode 0x1100010000000003 = .ok (.setbit .pay true 3) ∧
    decode 0x1100000000000010 = .ok (.setbit .pay false 16) := by decide

/-- Another byte of the space, and the same address of another space. -/
theorem test_witness_BitGetAndBitSet : ¬(Space.pay = Space.pay ∧ 1 = 0 / 8) ∧ ¬(Space.frm = Space.pay ∧ 0 = 0 / 8) := by decide

theorem test_witness_BitAccessLaws : Memory.wf .pay ((block 1 0 0).mem .pay) ∧ 7 ≠ 8 := ⟨wf_nil _, by decide⟩

theorem test_witness_MixedWidthAccessesAgree :
    (block 1 0 0).chMax.toNat ≤ 4294967299 ∧ (7 : Imm).toNat < (block 1 0 0).sizeOf .pay ∧ 7 < 8 ∧
    (95 : Imm).toNat < 8 * (block 1 0 0).sizeOf .ch := by decide

theorem test_witness_LengthPrefixIsBigEndian : 0 < 4 ∧ 3 < 4 := by decide

/-- A frame that ends at the last byte of FRM. -/
theorem test_witness_FrameBuildsTheFramedPayload :
    (block 1 8 0).Legal ∧ 3 < 4 ∧ 7 < (block 1 8 0).len.toNat ∧ (block 1 8 0).len.toNat + 4 ≤ 12 ∧
    opcOf 0x2000000000000000 = 0x20 := by decide

theorem test_witness_FramingLaws :
    1 < (2 : BitVec 32).toNat ∧ 31 < 32 ∧
    ∀ n < (2 : BitVec 32).toNat + 4, frameByte 2 (fun _ => 0x48) n = frameByte 2 (fun i => if i < 2 then 0x48 else 0) n := by
  decide

theorem test_witness_FrameBitsAreTheStream :
    (block 8 8 0x00020002).Legal ∧
    exec .frame (block 8 8 0x00020002) = .next ((block 8 8 0x00020002).buildFrame.respondOk 12) ∧
    95 < 8 * ((block 8 8 0x00020002).len.toNat + 4) ∧ (block 8 8 0x00020002).nch ≠ 0 ∧
    (block 8 8 0x00020002).total ≤ (block 8 8 0x00020002).capBits := ⟨by decide, rfl, by decide⟩

/-- One N that divides T and one that does not. -/
theorem test_witness_MinKIsTheLeastWidth : 0 < 12 ∧ 12 ∣ totalBits 8 ∧ 0 < 15 ∧ ¬15 ∣ totalBits 1 := by decide

theorem test_witness_CapacityIsOneComparison :
    4 ≤ 1 * 32 / 8 ∧ 1 * 31 / 8 < 4 ∧ (block 8 0 0x00020002).nch ≠ 0 ∧
    32 ≤ (block 8 0 0x00020002).k.toNat * (block 8 0 0x00020002).nch := by decide

/-- Each of the three outcomes. -/
theorem test_witness_PlanLoadsTheLeastWidth :
    (block 1 0 0x00070000).nch = 0 ∧
    8 < (8 * ((block 1 0 0x00010001).len.toNat + 4) + (block 1 0 0x00010001).nch - 1) / (block 1 0 0x00010001).nch ∧
    ¬8 < (8 * ((block 1 8 0x00010004).len.toNat + 4) + (block 1 8 0x00010004).nch - 1) / (block 1 8 0x00010004).nch ∧
    opcOf 0x2100000000000000 = 0x21 := by decide

/-- A PLAN that succeeds with 8, so that one less exists, and one that fails. -/
theorem test_witness_PlanThenEmbed :
    exec .plan (block 1 8 0x00010004) = .next ((block 8 8 0x00010004).respondOk 8) ∧
    Responded (block 1 8 0x00010004) ((block 8 8 0x00010004).respondOk 8) 0 8 ∧
    1 < ((block 8 8 0x00010004).respondOk 8).k.toNat ∧
    exec .plan (block 1 0 0x00010001) = .next (Failed (block 1 0 0x00010001) .insufficientCapacity) ∧
    1 ≤ (8 : BitVec 4).toNat ∧ (8 : BitVec 4).toNat ≤ 8 := ⟨rfl, ⟨rfl, rfl⟩, by decide, rfl, by decide⟩

/-- Each of the three outcomes; at K = 3 a last channel partly written. -/
theorem test_witness_EmbedPacksTheFrame :
    (block 3 0 0x00020002).k.toNat ≤ 8 ∧ (block 3 0 0).nch = 0 ∧
    (block 8 0 0x00010001).k.toNat * (block 8 0 0x00010001).nch < 8 * ((block 8 0 0x00010001).len.toNat + 4) ∧
    (block 3 0 0x00020002).nch ≠ 0 ∧
    ¬(block 3 0 0x00020002).k.toNat * (block 3 0 0x00020002).nch < 8 * ((block 3 0 0x00020002).len.toNat + 4) ∧
    (2 < (block 3 0 0x00020002).k.toNat ∧ 9 * (block 3 0 0x00020002).k.toNat + 2 < 32) ∧
    ¬(2 < (block 3 0 0x00020002).k.toNat ∧ 10 * (block 3 0 0x00020002).k.toNat + 2 < 32) ∧
    opcOf 0x2200000000000000 = 0x22 := by decide

/-- q = 10 and r = 2: channel 9 is the last whole one, 10 the partly written one, 11 the first untouched. -/
theorem test_witness_PackedChannelValues :
    1 ≤ (block 3 0 0x00020002).k.toNat ∧ (block 3 0 0x00020002).k.toNat ≤ 8 ∧ (block 3 0 0x00020002).nch ≠ 0 ∧
    (block 3 0 0x00020002).total ≤ (block 3 0 0x00020002).capBits ∧
    exec .embed (block 3 0 0x00020002) = .next ((block 3 0 0x00020002).packFrame.respondOk 11) ∧
    9 < (block 3 0 0x00020002).total / (block 3 0 0x00020002).k.toNat ∧
    10 = (block 3 0 0x00020002).total / (block 3 0 0x00020002).k.toNat ∧
    0 < (block 3 0 0x00020002).total % (block 3 0 0x00020002).k.toNat ∧
    (block 3 0 0x00020002).total / (block 3 0 0x00020002).k.toNat < 11 :=
  ⟨by decide, by decide, by decide, by decide, exec_embed_ok (by decide) (by decide), by decide⟩

/-- Channels 0 to 3 declare the empty payload at K = 8; whatever the other channels hold. -/
def emptyImage : State := { block 8 0 0x00020002 with ch := bytes [0, 0, 0, 0] }

/-- Each of the four outcomes. -/
theorem test_witness_ExtractUnpacksTheFrame :
    (block 8 0 0).nch = 0 ∧ (block 8 0 0x00010001).k.toNat * (block 8 0 0x00010001).nch < 32 ∧
    (({ block 8 0 0x00020002 with ch := bytes (List.replicate 12 0xFF) } : State).declaredLen = 0xFFFFFFFF ∧
      8 * 12 < 8 * ((0xFFFFFFFF : BitVec 32).toNat + 4)) ∧
    (emptyImage.declaredLen = 0 ∧ emptyImage.nch ≠ 0 ∧ ¬emptyImage.k.toNat * emptyImage.nch < 32 ∧
      ¬emptyImage.k.toNat * emptyImage.nch < 8 * ((0 : BitVec 32).toNat + 4)) ∧
    opcOf 0x2300000000000000 = 0x23 := by decide

/-- Two channel arrays that differ only at and above position K. -/
theorem test_witness_StreamBytesReadLowBitsOnly :
    0 < 1 ∧ 1 ≤ 8 ∧
    ∀ c i, i < 1 → bitOf (Memory.read .ch [(0, 0xFE)] c) i = bitOf (Memory.read .ch [(0, 0x00)] c) i := by
  refine ⟨by decide, by decide, fun c i hi => ?_⟩
  obtain rfl : i = 0 := by omega
  cases c with
  | zero => decide
  | succ c => simp [Memory.read, Memory.lookup]

/-- Two channel arrays that agree on the 32 bits consulted and differ beyond them. -/
theorem test_witness_ExtractIgnoresTheRestOfTheChannels :
    1 ≤ emptyImage.k.toNat ∧ emptyImage.k.toNat ≤ 8 ∧ emptyImage.nch ≠ 0 ∧ 32 ≤ emptyImage.capBits ∧
    totalBits emptyImage.declaredLen.toNat ≤ emptyImage.capBits ∧
    ∀ c i, i < emptyImage.k.toNat → c * emptyImage.k.toNat + i < totalBits emptyImage.declaredLen.toNat →
      bitOf (Memory.read .ch (bytes [0, 0, 0, 0, 0x55]) c) i = bitOf (Memory.read .ch emptyImage.ch c) i := by
  refine ⟨by decide, by decide, by decide, by decide, by decide, fun c i hi h => ?_⟩
  have hk : emptyImage.k.toNat = 8 := by decide
  have hT : totalBits emptyImage.declaredLen.toNat = 32 := by decide
  rw [hk] at hi h
  rw [hT] at h
  have hc : c < 4 := by omega
  interval_cases c <;> interval_cases i <;> decide

/-- An exact fit of EMBED, and an EXTRACT that passes its checks. -/
theorem test_witness_BulkAccessesStayInside :
    (block 8 8 0x00020002).Legal ∧ (block 8 8 0x00020002).nch ≠ 0 ∧
    (block 8 8 0x00020002).total ≤ (block 8 8 0x00020002).capBits ∧ 32 ≤ (block 8 8 0x00020002).capBits ∧
    emptyImage.Legal ∧ emptyImage.nch ≠ 0 ∧ totalBits emptyImage.declaredLen.toNat ≤ emptyImage.capBits := by decide

/-- An exact fit; the state EMBED leaves is itself a later state with the channels unchanged. -/
theorem test_witness_RoundTrip :
    (block 8 8 0x00020002).k.toNat ≤ 8 ∧ 1 ≤ (block 8 8 0x00020002).nch ∧
    8 * ((block 8 8 0x00020002).len.toNat + 4) ≤ (block 8 8 0x00020002).k.toNat * (block 8 8 0x00020002).nch ∧
    exec .embed (block 8 8 0x00020002) = .next ((block 8 8 0x00020002).packFrame.respondOk 12) ∧
    ((block 8 8 0x00020002).packFrame.respondOk 12).k = (block 8 8 0x00020002).k :=
  ⟨by decide, by decide, by decide, exec_embed_ok (by decide) (by decide), rfl⟩

/-- A block with CH_MAX = 48 and a grid of 4 × 4, so that the empty payload fits at K = 1. -/
def wide : State := { block 1 0 0x00040004 with chMax := 48 }

/-- K = 8, 1 and 4. -/
theorem test_witness_SpecialWidths :
    ((block 8 8 0x00020002).nch ≠ 0 ∧ (block 8 8 0x00020002).total ≤ (block 8 8 0x00020002).capBits ∧
      (block 8 8 0x00020002).k = 8 ∧
      exec .embed (block 8 8 0x00020002) = .next ((block 8 8 0x00020002).packFrame.respondOk 12)) ∧
    (wide.nch ≠ 0 ∧ wide.total ≤ wide.capBits ∧ wide.k = 1 ∧ 31 < wide.total ∧
      exec .embed wide = .next (wide.packFrame.respondOk 32)) ∧
    ((block 4 0 0x00020002).nch ≠ 0 ∧ (block 4 0 0x00020002).total ≤ (block 4 0 0x00020002).capBits ∧
      (block 4 0 0x00020002).k = 4 ∧ 7 < (block 4 0 0x00020002).total / (block 4 0 0x00020002).k.toNat ∧
      exec .embed (block 4 0 0x00020002) = .next ((block 4 0 0x00020002).packFrame.respondOk 8)) :=
  ⟨⟨by decide, by decide, by decide, exec_embed_ok (by decide) (by decide)⟩,
    ⟨by decide, by decide, by decide, by decide, exec_embed_ok (by decide) (by decide)⟩,
    by decide, by decide, by decide, by decide, exec_embed_ok (by decide) (by decide)⟩

theorem test_witness_FailingCommandChangesOnlyItsStickyBit :
    ((block 1 0 0).load [0x2300000000000000]).inputs = .command 0x2300000000000000 :: [] ∧
    step ((block 1 0 0).load [0x2300000000000000]) = .next ((block 1 0 0).raise .degenerateInput) ∧
    ((block 1 0 0).raise .degenerateInput).responses = (block 1 0 0).responses ++ [0x0500000000000000] ∧
    codeOf 0x0500000000000000 ≠ 0 := ⟨rfl, rfl, rfl, by decide⟩

/-- A word with no cause, one with the second of three, and an illegal one. -/
theorem test_witness_CompletionCodeIsTheFirstCause :
    firstCause (emptyImage.wordCauses 0x2300000000000000) = none ∧
    firstCause ((block 8 0 0x00010001).wordCauses 0x2300000000000000) = some .truncatedStream ∧
    firstCause ((block 8 0 0).wordCauses 0x2300000000000001) = some .illegalCommand ∧
    ((block 8 0 0).load [0x2300000000000001]).inputs = .command 0x2300000000000001 :: [] := by decide

theorem test_witness_CodesOfEachCommand :
    ((block 1 0 0).load [0x2100000000000000]).inputs = .command 0x2100000000000000 :: [] ∧
    step ((block 1 0 0).load [0x2100000000000000]) = .next ((block 1 0 0).raise .degenerateInput) ∧
    ((block 1 0 0).raise .degenerateInput).responses =
      ((block 1 0 0).load [0x2100000000000000]).responses ++ [0x0500000000000000] ∧
    5 ∈ codesOf 0x21 := ⟨rfl, rfl, rfl, by decide⟩

/-- A state with one error since its reset. -/
theorem test_witness_StickyLogKeptByStep :
    ((block 1 0 0).raise .addrRange).StickyLog ∧
    step ((block 1 0 0).raise .addrRange) = .next ((block 1 0 0).raise .addrRange) := by
  refine ⟨⟨by decide, fun c hc => ?_⟩, rfl⟩
  have h : ((block 1 0 0).raise .addrRange).sinceReset = [0x0700000000000000] := by decide
  rw [h]
  interval_cases c <;> simp <;> decide

theorem test_witness_EstickyAffectsNoCommand :
    Instr.plan ≠ .rreg .esticky ∧
    exec .plan (block 1 0 0) = .next ((block 1 0 0).raise .degenerateInput) := ⟨by decide, rfl⟩

/-- A state at the ends of its ranges. -/
theorem test_witness_InvKeptByStep :
    (block 8 8 0x00020002).Inv ∧ step (block 8 8 0x00020002) = .next (block 8 8 0x00020002) :=
  ⟨⟨by decide, ⟨wf_nil _, nofun⟩, ⟨wf_nil _, nofun⟩, ⟨wf_nil _, nofun⟩⟩, rfl⟩

/-- PLAN writes K. -/
theorem test_witness_OnlyTheseCommandsWriteTheRegisters :
    exec .plan (block 1 8 0x00010004) = .next ((block 8 8 0x00010004).respondOk 8) ∧
    ((block 8 8 0x00010004).respondOk 8).k ≠ (block 1 8 0x00010004).k := ⟨rfl, by decide⟩

/-- The byte after the frame, and one of another space. -/
theorem test_witness_BytesOutsideTheWriteRangesAreKept :
    exec .frame (block 1 2 0) = .next ((block 1 2 0).buildFrame.respondOk 6) ∧
    (block 1 2 0).writeRanges .frame = [⟨.frm, 0, 6⟩] ∧ ¬(⟨.frm, 0, 6⟩ : ByteRange).has .frm 6 ∧
    ¬(⟨.frm, 0, 6⟩ : ByteRange).has .pay 0 := ⟨rfl, by decide, by simp [ByteRange.has], by simp [ByteRange.has]⟩

theorem test_witness_DerivedQuantitiesInRange : (block 8 8 0x00020002).Legal ∧ wide.Legal := by decide

/-- The last channel of a 4 × 3 grid, and two colours of one pixel. -/
theorem test_witness_ChannelLayoutIsABijection : (3 < 4 ∧ 2 < 3 ∧ 2 < 3) ∧ 35 < 3 * 4 * 3 ∧ (0 < 4 ∧ 0 < 3 ∧ 0 < 4 ∧ 1 < 3) := by
  decide

/-- A 4 × 1 and a 2 × 2 grid; a WREG GRID that succeeds and one that fails. -/
theorem test_witness_GridActsThroughItsChannelCount :
    Instr.plan ≠ .rreg .grid ∧ gridChannels 0x00020002 = (block 1 8 0x00010004).nch ∧
    exec .plan (block 1 8 0x00010004) = .next ((block 8 8 0x00010004).respondOk 8) ∧
    (∀ v, Instr.plan ≠ .wreg .grid v) ∧
    exec (.wreg .grid 0) (block 1 8 0x00010004) = .next ((block 1 8 0).respondOk 0) ∧
    Responded (block 1 8 0x00010004) ((block 1 8 0).respondOk 0) 0 0 ∧
    exec (.wreg .grid 0x00010005) (block 1 8 0x00010004) = .next ((block 1 8 0x00010004).raise .badParam) :=
  ⟨by decide, by decide, rfl, nofun, rfl, ⟨rfl, rfl⟩, rfl⟩

/-- A reset between commands; one during FRAME, with an address outside what FRAME writes. -/
theorem test_witness_ResetEventResetsTheRegisters :
    ({ block 1 0 0 with inputs := [.reset] } : State).inputs = .reset :: [] ∧
    ({ block 1 0 0 with inputs := [.resetDuring 0x2000000000000000] } : State).inputs =
      .resetDuring 0x2000000000000000 :: [] ∧
    ∀ i, decode 0x2000000000000000 = .ok i → ∀ r ∈ (block 1 0 0).writeRanges i, ¬r.has .frm 4 := by
  refine ⟨rfl, rfl, fun i hi r hr => ?_⟩
  have h : decode 0x2000000000000000 = .ok .frame := by decide
  rw [h] at hi
  cases hi
  rw [show (block 1 0 0).writeRanges .frame = [⟨.frm, 0, 4⟩] by decide, List.mem_singleton] at hr
  subst hr
  simp [ByteRange.has]

theorem test_witness_SuccessfulCommandsAreIdempotent :
    (block 8 8 0x00020002).Inv ∧
    exec .embed (block 8 8 0x00020002) = .next ((block 8 8 0x00020002).packFrame.respondOk 12) ∧
    ((block 8 8 0x00020002).packFrame.respondOk 12).responses = (block 8 8 0x00020002).responses ++ [12] ∧
    codeOf 12 = 0 :=
  ⟨test_witness_InvKeptByStep.1, exec_embed_ok (by decide) (by decide), by decide, by decide⟩

/-- Each operand at the last value that fits and at the first that does not; a pseudo-instruction's last address likewise. -/
theorem test_witness_AssemblerEncodesCommands :
    (255 < 2 ^ 8 ∧ ¬256 < 2 ^ 8 ∧ 1099511627775 < 2 ^ 40 ∧ ¬1099511627776 < 2 ^ 40) ∧
    (assemble (.rbyte 255 1099511627775)).isSome = true ∧ assemble (.rbyte 256 0) = none ∧
    assemble (.rbyte 0 1099511627776) = none ∧ (assemble (.ldch 1099511627775 [255])).isSome = true ∧
    assemble (.ldch 1099511627775 [255, 255]) = none ∧ assemble (.fillch 1099511627776 0 256) = some [] := by decide

/-- A grid that fills CH, a payload that fills PAY, and channels up to the last. -/
theorem test_witness_PseudoInstructionsLoadTheBlock :
    (block 1 0 0).Legal ∧ 2 < 65536 ∧ 3 * 2 * 2 ≤ (block 1 0 0).chMax.toNat ∧
    (List.replicate 8 (0x48 : Byte)).length ≤ (block 1 0 0).sizeOf .pay ∧
    10 + ([0xFE, 0xFF] : List Byte).length ≤ (block 1 0 0).sizeOf .ch := by decide

theorem test_witness_InstancesShareNothing :
    [block 1 0 0, block 2 0 0][1]? = some (block 2 0 0) ∧ step (block 2 0 0) = .next (block 2 0 0) := ⟨rfl, rfl⟩

/-- FRAME with LEN 2 as the port holds it, executed or abandoned. -/
def framing : HostInput → State := fun c => { block 1 2 0 with inputs := [c] }

/-- FRAME with LEN 2, executed or abandoned, leaves FRM[6] unlisted; the last address of PAY is in range. -/
theorem test_witness_UnwrittenBytesReadAlike :
    (∀ c ∈ [HostInput.command 0x2000000000000000, .resetDuring 0x2000000000000000],
      Memory.lookup ((framing c).mem .frm) 6 = none ∧ (∃ t, step (framing c) = .next t) ∧
      ∀ (w : Word) (rest : List HostInput) (i : Instr),
        (framing c).inputs = .command w :: rest ∨ (framing c).inputs = .resetDuring w :: rest → decode w = .ok i →
        ∀ r ∈ (framing c).writeRanges i, ¬r.has .frm 6) ∧
    (Memory.lookup ((block 1 2 0).mem .pay) 7 = none ∧ (block 1 2 0).chMax.toNat ≤ 4294967299 ∧
      7 < (block 1 2 0).sizeOf .pay) := by
  refine ⟨fun c hc => ?_, by decide⟩
  have hf : decode 0x2000000000000000 = .ok .frame := by decide
  have hr : ∀ c, (framing c).writeRanges .frame = [⟨.frm, 0, 6⟩] := fun _ => rfl
  simp only [List.mem_cons, List.not_mem_nil, or_false] at hc
  rcases hc with rfl | rfl <;> refine ⟨rfl, ⟨_, rfl⟩, fun w rest i hw hd r hm => ?_⟩ <;>
    simp only [framing, List.cons.injEq, HostInput.command.injEq, HostInput.resetDuring.injEq, reduceCtorEq, false_and,
      or_false, false_or] at hw <;>
    · obtain ⟨rfl, -⟩ := hw
      cases hf.symm.trans hd
      rw [hr, List.mem_singleton] at hm
      subst hm
      simp [ByteRange.has]

end Sys2Proof.Tests
end

section
/-! The step (00_scope.md R9, 20_memory.md R36, R38). -/

namespace Sys2Proof.Machine

/-- Settles O7: `step_command`, where taking the input leaves the rest of the port. -/
theorem stepRunsTheDecodedCommand : Obligations.StepRunsTheDecodedCommand :=
  fun _ _ _ _ hin hdec => step_command hin hdec

end Sys2Proof.Machine
end

section
/-! What a command does, as one equation: it reports the first of its causes, or it succeeds, writes its effect and
answers (60_exceptions.md R130, R133, R135). -/

namespace Sys2Proof.Machine

/-! ### The fields of a grid (10_state.md R16) -/

theorem gridWidth_toNat (g : BitVec 32) : (g.extractLsb' 0 16).toNat = g.toNat % 65536 := by
  simp [BitVec.extractLsb'_toNat]

theorem gridHeight_toNat (g : BitVec 32) : (g.extractLsb' 16 16).toNat = g.toNat / 65536 := by
  have := g.isLt
  rw [BitVec.extractLsb'_toNat, Nat.shiftRight_eq_div_pow]
  omega

theorem gridChannels_eq (g : BitVec 32) : gridChannels g = 3 * (g.toNat % 65536) * (g.toNat / 65536) := by
  rw [gridChannels, gridWidth_toNat, gridHeight_toNat]

/-! ### The effect and the answer of a command that succeeds -/

/-- WREG's write, the value cut to the register's width; the read-only registers take none. -/
def State.setReg (s : State) (n : Reg) (v : Imm) : State :=
  match n with
  | .k => { s with k := v.setWidth 4 }
  | .len => { s with len := v.setWidth 32 }
  | .grid => { s with grid := v.setWidth 32 }
  | .esticky => s
  | .chmax => s

/-- What a command writes where none of its causes holds. -/
def State.effect (s : State) : Instr → State
  | .wreg n v => s.setReg n v
  | .wbyte sp d a => s.writeByte sp a.toNat d
  | .setbit sp b j => s.setBit sp j.toNat b
  | .frame => s.buildFrame
  | .plan => { s with k := BitVec.ofNat 4 (minK s.len.toNat s.nch) }
  | .embed => s.packFrame
  | .extract => s.unpackPayload
  | _ => s

/-- The DATA a command answers where none of its causes holds. -/
def State.answer (s : State) : Instr → Imm
  | .rreg n => s.readReg n
  | .rbyte sp a => (s.readByte sp a.toNat).setWidth 40
  | .getbit sp j => (BitVec.ofBool (s.getBit sp j.toNat)).setWidth 40
  | .frame => BitVec.ofNat 40 (s.len.toNat + 4)
  | .plan => BitVec.ofNat 40 (minK s.len.toNat s.nch)
  | .embed => BitVec.ofNat 40 (ceilDiv s.total s.k.toNat)
  | .extract => s.declaredLen.setWidth 40
  | _ => 0

/-- The state a command leaves: `raise` of the first of its causes, or its effect and its answer. -/
def State.outcome (s : State) (i : Instr) : State :=
  match firstCause (s.causes i) with
  | some e => s.raise e
  | none => (s.effect i).respondOk (s.answer i)

/-- The outcome as a chain of checks in the order of the causes. -/
theorem outcome_eq_foldr (s : State) (i : Instr) :
    s.outcome i =
      (s.causes i).foldr (fun c t => if c.2 then s.raise c.1 else t) ((s.effect i).respondOk (s.answer i)) := by
  unfold State.outcome
  induction s.causes i with
  | nil => rfl
  | cons c cs ih =>
    obtain ⟨e, b⟩ := c
    cases b
    · exact ih
    · rfl

/-! ### Legal values (10_state.md R14 to R16) -/

theorem legalValue_k_iff {s : State} {v : Imm} : s.legalValue .k v = true ↔ 1 ≤ v.toNat ∧ v.toNat ≤ 8 := by
  simp [State.legalValue]

theorem legalValue_len_iff {s : State} {v : Imm} : s.legalValue .len v = true ↔ v.toNat ≤ s.payBytes := by
  simp [State.legalValue, State.payBytes]

theorem legalValue_grid_iff {s : State} {v : Imm} :
    s.legalValue .grid v = true ↔ v.toNat < 2 ^ 32 ∧ gridChannels (v.setWidth 32) ≤ s.chMax.toNat := by
  simp only [State.legalValue, Bool.and_eq_true, decide_eq_true_eq]
  refine and_congr_right fun hv => ?_
  rw [gridChannels_eq, BitVec.toNat_setWidth, Nat.mod_eq_of_lt hv]

/-! ### The meaning of a command -/

/-- WREG of a writable register: check, then write (40_host_access.md R72). -/
theorem exec_wreg {n : Reg} (hn : n.writable = true) (v : Imm) (s : State) :
    exec (.wreg n v) s =
      .next (if s.legalValue n v then (s.setReg n v).respondOk 0 else s.raise .badParam) := by
  cases n with
  | k =>
    simp only [exec, execWreg, State.writeK, legalValue_k_iff]
    by_cases h : 1 ≤ v.toNat ∧ v.toNat ≤ 8
    · rw [if_neg (by omega), if_pos h]; rfl
    · rw [if_pos (by omega), if_neg h]
  | len =>
    simp only [exec, execWreg, State.writeLen, legalValue_len_iff]
    by_cases h : v.toNat ≤ s.payBytes
    · rw [if_neg (by omega), if_pos h]; rfl
    · rw [if_pos (by omega), if_neg h]
  | grid =>
    simp only [exec, execWreg, State.writeGrid, legalValue_grid_iff]
    by_cases hw : 2 ^ 32 ≤ v.toNat
    · rw [if_pos hw, if_neg (by omega)]
    · by_cases hg : gridChannels (v.setWidth 32) ≤ s.chMax.toNat
      · rw [if_neg hw, if_neg (by omega), if_pos ⟨by omega, hg⟩]; rfl
      · rw [if_neg hw, if_pos (by omega), if_neg (by omega)]
  | esticky | chmax => cases hn

/-- A command whose operands the decoder accepts has the outcome its causes give. -/
theorem exec_eq_outcome {i : Instr} (hi : i.wellFormed = true) (s : State) : exec i s = .next (s.outcome i) := by
  rw [outcome_eq_foldr]
  cases i with
  | wreg n v =>
    rw [exec_wreg hi]
    simp only [State.causes, List.foldr]
    cases s.legalValue n v <;> rfl
  | _ =>
    simp only [State.causes, List.foldr, decide_eq_true_eq, beq_iff_eq, apply_ite Host.Outcome.next]
    rfl

/-- WREG of a read-only register, which no word spells, is illegal (log entry 9). -/
theorem exec_eq_raise {i : Instr} (hi : i.wellFormed = false) (s : State) :
    exec i s = .next (s.raise .illegalCommand) := by
  cases i with
  | wreg n v =>
    cases n with
    | esticky | chmax => rfl
    | k | len | grid => cases hi
  | _ => cases hi

/-- What a command can do: it is `raise` of one error, or none of its causes holds and it leaves its effect and answers. -/
theorem exec_next_cases {i : Instr} {s t : State} (h : exec i s = .next t) :
    (∃ e, t = s.raise e) ∨ (firstCause (s.causes i) = none ∧ t = (s.effect i).respondOk (s.answer i)) := by
  cases hi : i.wellFormed with
  | false =>
    rw [exec_eq_raise hi] at h
    exact .inl ⟨_, (Host.Outcome.next.inj h).symm⟩
  | true =>
    rw [exec_eq_outcome hi] at h
    cases h
    unfold State.outcome
    split
    · exact .inl ⟨_, rfl⟩
    · exact .inr ⟨‹_›, rfl⟩

end Sys2Proof.Machine
end

section
/-! State and invariants (10_state.md R14 to R26). -/

namespace Sys2Proof.Machine

/-! ### Predicates that every step keeps -/

/-- What taking an input, an error, a success, a reset and an abandoned command keep, every step keeps. -/
theorem step_keeps {P : State → Prop} {s t : State}
    (htake : ∀ s rest, P s → P (s.takeInput rest))
    (hraise : ∀ s e, P s → P (s.raise e))
    (hok : ∀ s i, P s → firstCause (s.causes i) = none → P ((s.effect i).respondOk (s.answer i)))
    (hreset : ∀ s, P s → P s.applyReset)
    (habandon : ∀ s w, P s → P (s.abandon w))
    (hs : P s) (h : step s = .next t) : P t := by
  match hin : s.inputs with
  | [] =>
    rw [step_nil hin] at h
    cases h
    exact hs
  | .command w :: rest =>
    cases hd : decode w with
    | ok i =>
      rw [step_command hin hd] at h
      obtain ⟨e, rfl⟩ | ⟨hc, rfl⟩ := exec_next_cases h
      · exact hraise _ e (htake s rest hs)
      · exact hok _ i (htake s rest hs) hc
    | error why =>
      rw [step_illegal hin hd] at h
      cases h
      exact hraise _ _ (htake s rest hs)
  | .reset :: rest =>
    rw [step_reset hin] at h
    cases h
    exact hreset _ (htake s rest hs)
  | .resetDuring w :: rest =>
    rw [step_resetDuring hin] at h
    cases h
    exact habandon _ w (htake s rest hs)

/-! ### What a success leaves unchanged -/

@[simp] theorem setReg_esticky (s : State) (n : Reg) (v : Imm) : (s.setReg n v).esticky = s.esticky := by cases n <;> rfl
@[simp] theorem setReg_chMax (s : State) (n : Reg) (v : Imm) : (s.setReg n v).chMax = s.chMax := by cases n <;> rfl
@[simp] theorem setReg_cc (s : State) (n : Reg) (v : Imm) : (s.setReg n v).cc = s.cc := by cases n <;> rfl
@[simp] theorem setReg_responses (s : State) (n : Reg) (v : Imm) : (s.setReg n v).responses = s.responses := by
  cases n <;> rfl

@[simp] theorem effect_esticky (s : State) (i : Instr) : (s.effect i).esticky = s.esticky := by
  cases i <;> simp [State.effect, State.writeByte, State.setBit]

@[simp] theorem effect_chMax (s : State) (i : Instr) : (s.effect i).chMax = s.chMax := by
  cases i <;> simp [State.effect, State.writeByte, State.setBit]

@[simp] theorem effect_cc (s : State) (i : Instr) : (s.effect i).cc = s.cc := by
  cases i <;> simp [State.effect, State.writeByte, State.setBit]

@[simp] theorem effect_responses (s : State) (i : Instr) : (s.effect i).responses = s.responses := by
  cases i <;> simp [State.effect, State.writeByte, State.setBit]

/-! ### ESTICKY as the record of the errors (10_state.md R17) -/

theorem errCode_range (e : ErrCode) : 1 ≤ e.code.toNat ∧ e.code.toNat ≤ 8 := by cases e <;> decide

/-- Bit c after an error: set before, or the error's own. -/
theorem getLsbD_stickySet (v : BitVec 16) (e : ErrCode) {c : Nat} (hc : c < 16) :
    (stickySet v e).getLsbD c = (v.getLsbD c || decide (e.code.toNat = c)) := by
  rw [stickySet, BitVec.getLsbD_or, BitVec.getLsbD_shiftLeft, BitVec.getLsbD_one]
  congr 1
  rw [Bool.eq_iff_iff]
  simp only [hc, decide_true, Bool.true_and, Bool.and_eq_true, Bool.not_eq_true', decide_eq_false_iff_not, decide_eq_true_eq]
  omega

/-- One more response is one more since the last reset. -/
theorem sinceReset_append {s t : State} {r : Word} (hle : s.cc ≤ s.responses.length)
    (hr : t.responses = s.responses ++ [r]) (hcc : t.cc = s.cc + 1) : t.sinceReset = s.sinceReset ++ [r] := by
  unfold State.sinceReset
  rw [hr, hcc, List.length_append, List.length_singleton, Nat.add_sub_add_right, List.drop_append_of_le_length (by omega)]

/-- A command whose response sets its own bit of ESTICKY, and no bit where it is 0, keeps the record. -/
theorem stickyLog_of_response {s t : State} {r : Word} (hs : s.StickyLog)
    (hr : t.responses = s.responses ++ [r]) (hcc : t.cc = s.cc + 1)
    (he : ∀ c < 16, t.esticky.getLsbD c = true ↔
      s.esticky.getLsbD c = true ∨ (1 ≤ c ∧ c ≤ 8 ∧ (codeOf r).toNat = c)) : t.StickyLog := by
  obtain ⟨hle, hbits⟩ := hs
  refine ⟨by rw [hr, hcc, List.length_append]; exact Nat.succ_le_succ hle, fun c hc => ?_⟩
  rw [he c hc, hbits c hc, sinceReset_append hle hr hcc]
  simp only [List.mem_append, List.mem_singleton, or_and_right, exists_or, exists_eq_left, and_or_left]

theorem stickyLog_raise {s : State} (e : ErrCode) (hs : s.StickyLog) : (s.raise e).StickyLog := by
  refine stickyLog_of_response hs (raise_responses s e) (raise_cc s e) fun c hc => ?_
  obtain ⟨h1, h8⟩ := errCode_range e
  rw [raise_esticky, getLsbD_stickySet _ _ hc, codeOf_responseWord, Bool.or_eq_true, decide_eq_true_eq]
  refine or_congr_right ⟨fun h => ?_, fun h => h.2.2⟩
  omega

theorem stickyLog_of_ok {s : State} (i : Instr) (d : Imm) (hs : s.StickyLog) :
    ((s.effect i).respondOk d).StickyLog := by
  refine stickyLog_of_response (r := responseWord 0 d) hs (by simp) (by simp) fun c _ => ?_
  rw [codeOf_responseWord, respondOk_esticky, effect_esticky]
  exact ⟨.inl, fun h => h.elim id fun ⟨h1, _, h0⟩ => absurd h0 (Nat.ne_of_lt h1)⟩

/-- The record is empty where the index and ESTICKY are 0, as after a reset. -/
theorem stickyLog_of_zero {s : State} (hcc : s.cc = 0) (he : s.esticky = 0) : s.StickyLog := by
  have hsince : s.sinceReset = [] := by simp [State.sinceReset, hcc]
  refine ⟨by omega, fun c _ => ?_⟩
  simp [hsince, he]

/-- Settles O42: an error sets its own bit and adds its own response, a success adds a response with code 0, and both
reset events begin a new record. -/
theorem stickyLogKeptByStep : Obligations.StickyLogKeptByStep := fun _ _ =>
  step_keeps (fun _ _ hs => hs) (fun _ e => stickyLog_raise e) (fun _ i hs _ => stickyLog_of_ok i _ hs)
    (fun _ _ => stickyLog_of_zero rfl rfl)
    fun s w _ => by
      obtain ⟨-, -, -, hes, hcc, -⟩ := abandon_registers s w
      exact stickyLog_of_zero hcc hes

/-- Settles O41: index and ESTICKY are 0. -/
theorem stickyLogAtReset : Obligations.StickyLogAtReset := stickyLog_of_zero rfl rfl

/-! ### Bounds in a state with legal registers (10_state.md R19, 44_lsbcodec.md R117) -/

theorem State.Legal.frame_fits {s : State} (h : s.Legal) : s.len.toNat + 4 ≤ s.chMax.toNat := by
  obtain ⟨⟨hmin, _⟩, _, hlen, _⟩ := h
  unfold State.payBytes at hlen
  omega

theorem State.Legal.total_le {s : State} (h : s.Legal) : s.total ≤ 8 * s.chMax.toNat := by
  have := h.frame_fits
  unfold State.total totalBits
  omega

theorem State.Legal.capBits_le {s : State} (h : s.Legal) : s.capBits ≤ 8 * s.chMax.toNat := by
  obtain ⟨_, ⟨_, hk8⟩, _, hnch, _⟩ := h
  exact Nat.mul_le_mul hk8 hnch

theorem State.Legal.packed_fits {s : State} (h : s.Legal) (hfit : s.total ≤ s.capBits) :
    s.total ≤ s.chMax.toNat * s.k.toNat := by
  obtain ⟨_, _, _, hnch, _⟩ := h
  calc s.total ≤ s.k.toNat * s.nch := hfit
    _ ≤ s.k.toNat * s.chMax.toNat := Nat.mul_le_mul_left _ hnch
    _ = s.chMax.toNat * s.k.toNat := Nat.mul_comm ..

theorem State.Legal.declared_fits {s : State} (h : s.Legal) (hfit : totalBits s.declaredLen.toNat ≤ s.capBits) :
    s.declaredLen.toNat + 4 ≤ s.chMax.toNat := by
  have := Nat.le_trans hfit h.capBits_le
  unfold totalBits at this
  omega

/-! ### The invariant (10_state.md R25) -/

/-- No cause is reported exactly where none holds. -/
theorem firstCause_eq_none_iff {cs : List (ErrCode × Bool)} : firstCause cs = none ↔ ∀ c ∈ cs, c.2 = false := by
  induction cs with
  | nil => simp [firstCause]
  | cons c cs ih =>
    obtain ⟨e, b⟩ := c
    cases b <;> simp [firstCause, ih]

theorem inv_iff {s : State} : s.Inv ↔ s.Legal ∧ ∀ sp, s.MemOk sp :=
  ⟨fun ⟨hl, hp, hf, hc⟩ => ⟨hl, fun sp => by cases sp <;> assumption⟩, fun ⟨hl, hm⟩ => ⟨hl, hm .pay, hm .frm, hm .ch⟩⟩

/-- A canonical memory inside its space keeps the invariant. -/
theorem inv_setMem {s : State} {sp : Space} {m : Memory} (hs : s.Inv) (hwf : Memory.wf sp m)
    (hin : Memory.within (s.sizeOf sp) m) : (s.setMem sp m).Inv := by
  obtain ⟨hl, hm⟩ := inv_iff.mp hs
  refine inv_iff.mpr ⟨by cases sp <;> exact hl, fun sp' => ?_⟩
  unfold State.MemOk
  rw [mem_setMem, sizeOf_setMem]
  split
  · subst sp'; exact ⟨hwf, hin⟩
  · exact hm sp'

/-- Filling a range that lies inside its space keeps the invariant. -/
theorem inv_fill {s : State} {sp : Space} (f : Nat → Byte) {base n : Nat} (hs : s.Inv) (hn : base + n ≤ s.sizeOf sp) :
    (s.setMem sp (Memory.fill sp f base n (s.mem sp))).Inv := by
  obtain ⟨hwf, hin⟩ := (inv_iff.mp hs).2 sp
  exact inv_setMem hs (wf_fill hwf f base n) (within_fill hin f hn)

theorem inv_writeByte {s : State} {sp : Space} {a : Nat} (v : Byte) (hs : s.Inv) (ha : a < s.sizeOf sp) :
    (s.writeByte sp a v).Inv := by
  obtain ⟨hwf, hin⟩ := (inv_iff.mp hs).2 sp
  exact inv_setMem hs (wf_write hwf a v) (within_write hin ha v)

theorem inv_setBit {s : State} {sp : Space} {j : Nat} (b : Bool) (hs : s.Inv) (hj : j < 8 * s.sizeOf sp) :
    (s.setBit sp j b).Inv := inv_writeByte _ hs (by omega)

theorem inv_buildFrame {s : State} (hs : s.Inv) : s.buildFrame.Inv := by
  have hfit : s.len.toNat + 4 ≤ s.sizeOf .frm := hs.1.frame_fits
  have hhead := inv_fill (sp := .frm) (be32 s.len) (base := 0) (n := 4) hs (by omega)
  exact inv_fill (sp := .frm) (s.readByte .pay) (base := 4) (n := s.len.toNat) hhead (by rw [sizeOf_setMem]; omega)

theorem inv_packFrame {s : State} (hs : s.Inv) (hfit : s.total ≤ s.capBits) : s.packFrame.Inv := by
  have ⟨_, _, _, hwf, hin⟩ := hs
  have ⟨_, ⟨hk, _⟩, _⟩ := hs.1
  exact inv_setMem (sp := .ch) (inv_buildFrame hs) (wf_packBits _ _ hwf)
    (within_packBits hk _ _ hin (hs.1.packed_fits hfit))

theorem inv_unpackPayload {s : State} (hs : s.Inv) (hfit : totalBits s.declaredLen.toNat ≤ s.capBits) :
    s.unpackPayload.Inv := by
  have hl := hs.1.declared_fits hfit
  have hpay : s.declaredLen.toNat ≤ s.payBytes := by unfold State.payBytes; omega
  have hframe : s.unpackFrame.Inv :=
    inv_fill (sp := .frm) (streamByte s.ch s.k.toNat) (base := 0) (n := s.declaredLen.toNat + 4) hs
      (by rw [Nat.zero_add]; exact hl)
  have ⟨⟨hmax, hk, _, hgrid⟩, hmem⟩ := inv_fill (sp := .pay) (fun n => s.unpackFrame.readByte .frm (4 + n)) (base := 0)
    (n := s.declaredLen.toNat) hframe (by rw [Nat.zero_add]; exact hpay)
  exact ⟨⟨hmax, hk, hpay, hgrid⟩, hmem⟩

/-- A legal value keeps the invariant. -/
theorem inv_setReg {s : State} {n : Reg} {v : Imm} (hs : s.Inv) (hv : s.legalValue n v = true) : (s.setReg n v).Inv := by
  obtain ⟨⟨hmax, hk, hlen, hnch, hes⟩, hmem⟩ := hs
  cases n with
  | k =>
    have ⟨h1, h8⟩ := legalValue_k_iff.mp hv
    have : (v.setWidth 4).toNat = v.toNat := by rw [BitVec.toNat_setWidth, Nat.mod_eq_of_lt (by omega)]
    exact ⟨⟨hmax, this.symm ▸ ⟨h1, h8⟩, hlen, hnch, hes⟩, hmem⟩
  | len =>
    have hle := legalValue_len_iff.mp hv
    have : (v.setWidth 32).toNat ≤ v.toNat := by rw [BitVec.toNat_setWidth]; exact Nat.mod_le ..
    exact ⟨⟨hmax, hk, Nat.le_trans this hle, hnch, hes⟩, hmem⟩
  | grid => exact ⟨⟨hmax, hk, hlen, (legalValue_grid_iff.mp hv).2, hes⟩, hmem⟩
  | esticky => exact ⟨⟨hmax, hk, hlen, hnch, hes⟩, hmem⟩
  | chmax => exact ⟨⟨hmax, hk, hlen, hnch, hes⟩, hmem⟩

/-- PLAN writes a width from 1 to 8. -/
theorem inv_plan {s : State} (hs : s.Inv) (hn : s.nch ≠ 0) (hfit : minK s.len.toNat s.nch ≤ 8) :
    ({ s with k := BitVec.ofNat 4 (minK s.len.toNat s.nch) } : State).Inv := by
  have hpos : 0 < minK s.len.toNat s.nch := minK_pos (Nat.pos_of_ne_zero hn)
  have hk : (BitVec.ofNat 4 (minK s.len.toNat s.nch)).toNat = minK s.len.toNat s.nch := by
    rw [BitVec.toNat_ofNat, Nat.mod_eq_of_lt (by omega)]
  obtain ⟨⟨hmax, _, hrest⟩, hmem⟩ := hs
  exact ⟨⟨hmax, hk.symm ▸ ⟨hpos, hfit⟩, hrest⟩, hmem⟩

/-- A command none of whose causes holds writes legal values and existing addresses only. -/
theorem inv_effect {s : State} {i : Instr} (hs : s.Inv) (hc : firstCause (s.causes i) = none) : (s.effect i).Inv := by
  rw [firstCause_eq_none_iff] at hc
  cases i with
  | wreg n v => exact inv_setReg hs (by simpa [State.causes] using hc)
  | wbyte sp d a => exact inv_writeByte d hs (by simpa [State.causes] using hc)
  | setbit sp b j => exact inv_setBit b hs (by simpa [State.causes] using hc)
  | frame => exact inv_buildFrame hs
  | plan =>
    obtain ⟨hn, hfit⟩ : s.nch ≠ 0 ∧ minK s.len.toNat s.nch ≤ 8 := by simpa [State.causes] using hc
    exact inv_plan hs hn hfit
  | embed =>
    obtain ⟨_, hfit⟩ : s.nch ≠ 0 ∧ s.total ≤ s.capBits := by simpa [State.causes] using hc
    exact inv_packFrame hs hfit
  | extract =>
    obtain ⟨_, _, hfit⟩ : s.nch ≠ 0 ∧ 32 ≤ s.capBits ∧ totalBits s.declaredLen.toNat ≤ s.capBits := by
      simpa [State.causes, totalBits] using hc
    exact inv_unpackPayload hs hfit
  | nop | rreg | rbyte | getbit => exact hs

/-- An error's bit is one of bits 1 to 8. -/
theorem inv_raise {s : State} (e : ErrCode) (hs : s.Inv) : (s.raise e).Inv := by
  obtain ⟨⟨hmax, hk, hlen, hnch, hes⟩, hmem⟩ := hs
  refine ⟨⟨hmax, hk, hlen, hnch, fun i hi hunused => ?_⟩, hmem⟩
  obtain ⟨h1, h8⟩ := errCode_range e
  rw [raise_esticky, getLsbD_stickySet _ _ hi, hes i hi hunused, Bool.false_or, decide_eq_false_iff_not]
  omega

theorem nch_applyReset (s : State) : s.applyReset.nch = 0 :=
  (by decide : gridChannels 0 = 0)

/-- The reset values of the registers are legal. -/
theorem inv_applyReset {s : State} (hs : s.Inv) : s.applyReset.Inv := by
  obtain ⟨⟨hmax, _⟩, hmem⟩ := hs
  refine ⟨⟨hmax, by simp, Nat.zero_le _, nch_applyReset s ▸ Nat.zero_le _, fun _ _ _ => ?_⟩, hmem⟩
  rw [applyReset_esticky, BitVec.ofNat_eq_ofNat, BitVec.getLsbD_zero]

/-- The ranges a command could write lie inside their spaces (44_lsbcodec.md R117). -/
theorem writeRanges_inside {s : State} (hs : s.Legal) {i : Instr} {r : ByteRange} (hr : r ∈ s.writeRanges i) :
    r.base + r.n ≤ s.sizeOf r.space := by
  cases i with
  | wbyte sp d a =>
    simp only [State.writeRanges] at hr
    split at hr
    · nomatch hr
    · obtain rfl := List.mem_singleton.mp hr
      show a.toNat + 1 ≤ s.sizeOf sp
      omega
  | setbit sp b j =>
    simp only [State.writeRanges] at hr
    split at hr
    · nomatch hr
    · obtain rfl := List.mem_singleton.mp hr
      show j.toNat / 8 + 1 ≤ s.sizeOf sp
      omega
  | frame =>
    obtain rfl := List.mem_singleton.mp hr
    exact (Nat.zero_add _).trans_le (hs.frame_fits)
  | embed =>
    have ⟨_, ⟨hk, _⟩, _⟩ := hs
    simp only [State.writeRanges] at hr
    split at hr
    · nomatch hr
    · obtain rfl | rfl := List.mem_pair.mp hr
      · exact (Nat.zero_add _).trans_le (hs.frame_fits)
      · exact (Nat.zero_add _).trans_le ((ceilDiv_le_iff hk).mpr (hs.packed_fits (by omega)))
  | extract =>
    simp only [State.writeRanges] at hr
    split at hr
    · nomatch hr
    · have hfit := hs.declared_fits (by omega)
      obtain rfl | rfl := List.mem_pair.mp hr
      · exact (Nat.zero_add _).trans_le hfit
      · show 0 + s.declaredLen.toNat ≤ s.chMax.toNat - 4
        omega
  | nop | rreg | wreg | rbyte | getbit | plan => nomatch hr

theorem inv_scrambleAll {s : State} {rs : List ByteRange} (hs : s.Inv)
    (hrs : ∀ r ∈ rs, r.base + r.n ≤ s.sizeOf r.space) : (s.scrambleAll rs).Inv := by
  induction rs generalizing s with
  | nil => exact hs
  | cons r rs ih =>
    refine ih (inv_fill _ hs (hrs r List.mem_cons_self)) fun r' hr' => ?_
    rw [sizeOf_scramble]
    exact hrs r' (List.mem_cons_of_mem _ hr')

theorem inv_abandon {s : State} (w : Word) (hs : s.Inv) : (s.abandon w).Inv := by
  unfold State.abandon
  split
  · exact inv_applyReset (inv_scrambleAll hs fun r hr => writeRanges_inside hs.1 hr)
  · exact inv_applyReset hs

/-- Settles O46: a success writes legal values and existing addresses, an error only its bit of ESTICKY, and a reset event
keeps the memories but for ranges inside them. -/
theorem invKeptByStep : Obligations.InvKeptByStep := fun _ _ =>
  step_keeps (fun _ _ hs => hs) (fun _ e => inv_raise e) (fun _ _ hs hc => inv_effect hs hc)
    (fun _ => inv_applyReset) (fun _ w => inv_abandon w)

/-! ### The reset state (10_state.md R26) -/

theorem reset_chMax_toNat : State.reset.chMax.toNat = Config.chMax := BitVec.toNat_ofNatLT ..

/-- Settles O44: every byte is unlisted, so it reads as its free byte. -/
theorem resetState : Obligations.ResetState :=
  ⟨rfl, rfl, rfl, rfl, reset_chMax_toNat, rfl, fun _ => ⟨rfl, rfl, rfl⟩⟩

theorem legal_reset : State.reset.Legal := by
  refine ⟨reset_chMax_toNat ▸ ⟨Config.chMax_ge, Config.chMax_le⟩, by decide, Nat.zero_le _, Nat.zero_le _, fun _ _ _ => ?_⟩
  exact BitVec.getLsbD_zero

/-- Settles O45: the reset registers are legal and the memories list nothing. -/
theorem invAtReset : Obligations.InvAtReset :=
  inv_iff.mpr ⟨legal_reset, fun sp => ⟨wf_reset sp, by cases sp <;> exact nofun⟩⟩

/-! ### Who writes which register (10_state.md R10) -/

theorem effect_k_ne {s : State} {i : Instr} (h : (s.effect i).k ≠ s.k) : (∃ v, i = .wreg .k v) ∨ i = .plan := by
  cases i with
  | wreg n v => cases n <;> simp_all [State.effect, State.setReg]
  | plan => exact .inr rfl
  | _ => simp [State.effect, State.writeByte, State.setBit] at h

theorem effect_len_ne {s : State} {i : Instr} (h : (s.effect i).len ≠ s.len) :
    (∃ v, i = .wreg .len v) ∨ i = .extract := by
  cases i with
  | wreg n v => cases n <;> simp_all [State.effect, State.setReg]
  | extract => exact .inr rfl
  | _ => simp [State.effect, State.writeByte, State.setBit] at h

theorem effect_grid_ne {s : State} {i : Instr} (h : (s.effect i).grid ≠ s.grid) : ∃ v, i = .wreg .grid v := by
  cases i with
  | wreg n v => cases n <;> simp_all [State.effect, State.setReg]
  | _ => simp [State.effect, State.writeByte, State.setBit] at h

theorem and_stickySet (v : BitVec 16) (e : ErrCode) : v &&& stickySet v e = v := by
  ext i
  simp +contextual [stickySet]

/-- Settles O47: an error writes ESTICKY alone and only sets a bit of it; a success writes what its effect writes. -/
theorem onlyTheseCommandsWriteTheRegisters : Obligations.OnlyTheseCommandsWriteTheRegisters := by
  intro i s t h
  obtain ⟨-, -, helsewhere⟩ := exec_cases h
  obtain ⟨e, rfl⟩ | ⟨-, rfl⟩ := exec_next_cases h
  · exact ⟨fun hk => absurd rfl hk, fun hl => absurd rfl hl, fun hg => absurd rfl hg, rfl, and_stickySet _ e, helsewhere⟩
  · refine ⟨effect_k_ne, effect_len_ne, effect_grid_ne, effect_chMax s i, ?_, helsewhere⟩
    rw [respondOk_esticky, effect_esticky, BitVec.and_self]

/-! ### Derived quantities (10_state.md R19) -/

/-- Settles O49: the fields of GRID, and the bounds of a state with legal registers. -/
theorem derivedQuantitiesInRange : Obligations.DerivedQuantitiesInRange := by
  intro s
  have hw : s.width = s.grid.toNat % 65536 := gridWidth_toNat s.grid
  have hh : s.height = s.grid.toNat / 65536 := gridHeight_toNat s.grid
  refine ⟨hw, hh, rfl, rfl, rfl, rfl, fun hs => ?_⟩
  have hnch : s.nch = 3 * s.npix := Nat.mul_assoc ..
  have htotal := hs.total_le
  have hcap := hs.capBits_le
  have hhead : 32 ≤ s.total := Nat.mul_le_mul_left 8 (Nat.le_add_left 4 _)
  have hgrid := s.grid.isLt
  obtain ⟨⟨_, hmax⟩, _, _, hfit, _⟩ := hs
  refine ⟨?_, ?_, ?_, hfit, hhead, htotal, hcap, ?_, ?_⟩ <;> omega

/-! ### The layout of the channels (10_state.md R23) -/

/-- Lexicographic order of digits: quotients first, then remainders. -/
theorem mul_add_lt_mul_add_iff {b q r q' r' : Nat} (hr : r < b) (hr' : r' < b) :
    q * b + r < q' * b + r' ↔ q < q' ∨ (q = q' ∧ r < r') := by
  rcases Nat.lt_trichotomy q q' with hlt | rfl | hgt
  · have := Nat.mul_le_mul_right b (Nat.succ_le_of_lt hlt)
    rw [Nat.succ_mul] at this
    simp only [hlt, true_or, iff_true]
    omega
  · simp
  · have := Nat.mul_le_mul_right b (Nat.succ_le_of_lt hgt)
    rw [Nat.succ_mul] at this
    omega

theorem mul_add_eq_mul_add_iff {b q r q' r' : Nat} (hr : r < b) (hr' : r' < b) :
    q * b + r = q' * b + r' ↔ q = q' ∧ r = r' := by
  have hlt := mul_add_lt_mul_add_iff (q := q) (q' := q') hr hr'
  have hgt := mul_add_lt_mul_add_iff (q := q') (q' := q) hr' hr
  omega

/-- Settles O50: the colour is the digit of base 3, the column that of base W, the row the rest. -/
theorem channelLayoutIsABijection : Obligations.ChannelLayoutIsABijection := by
  intro w h
  have horder : ∀ x y c x' y' c', x < w → c < 3 → x' < w → c' < 3 →
      (channelIndex w x y c < channelIndex w x' y' c' ↔ y < y' ∨ (y = y' ∧ (x < x' ∨ (x = x' ∧ c < c')))) := by
    intro x y c x' y' c' hx hc hx' hc'
    unfold channelIndex
    rw [Nat.mul_comm 3, Nat.mul_comm 3, mul_add_lt_mul_add_iff hc hc', mul_add_lt_mul_add_iff hx hx',
      mul_add_eq_mul_add_iff hx hx']
    omega
  refine ⟨?_, ?_, horder⟩
  · intro x y c hx hy hc
    have hpixel : y * w + x < h * w + 0 := (mul_add_lt_mul_add_iff hx (by omega)).mpr (.inl hy)
    have hsize : 3 * w * h = 3 * (h * w) := by ring
    unfold channelIndex
    omega
  · intro n hn
    have hsize : 3 * w * h = 3 * (h * w) := by ring
    have hpixel : n / 3 < h * w := by omega
    have hw : 0 < w := Nat.pos_of_mul_pos_left (Nat.zero_lt_of_lt hpixel)
    refine ⟨n / 3 % w, n / 3 / w, n % 3, Nat.mod_lt _ hw, (Nat.div_lt_iff_lt_mul hw).mpr hpixel,
      Nat.mod_lt _ (by decide), ?_⟩
    rw [channelIndex, Nat.div_add_mod', Nat.div_add_mod]

/-! ### The grid acts through its channel count (10_state.md R23, 70_reset_and_hazards.md R155) -/

/-- The causes of a command's errors see only the channel count. -/
theorem causes_withGrid {s : State} {g : BitVec 32} (h : gridChannels g = s.nch) (i : Instr) :
    ({ s with grid := g } : State).causes i = s.causes i := by
  have hn : ({ s with grid := g } : State).nch = s.nch := h
  have hc : ({ s with grid := g } : State).capBits = s.capBits := congrArg (s.k.toNat * ·) h
  cases i with
  | plan => simp only [State.causes, hn]
  | embed => simp only [State.causes, hn, hc]; rfl
  | extract => simp only [State.causes, hn, hc]; rfl
  | wreg n v => cases n <;> rfl
  | rbyte sp | wbyte sp | getbit sp | setbit sp => cases sp <;> rfl
  | nop | rreg | frame => rfl

theorem effect_withGrid {s : State} {g : BitVec 32} (h : gridChannels g = s.nch) {i : Instr}
    (hi : ∀ v, i ≠ .wreg .grid v) :
    ({ s with grid := g } : State).effect i = { s.effect i with grid := g } := by
  have hn : ({ s with grid := g } : State).nch = s.nch := h
  cases i with
  | plan => simp only [State.effect, hn]
  | wreg n v =>
    cases n with
    | grid => exact absurd rfl (hi v)
    | _ => rfl
  | wbyte sp | setbit sp => cases sp <;> rfl
  | _ => rfl

theorem answer_withGrid {s : State} {g : BitVec 32} (h : gridChannels g = s.nch) {i : Instr} (hi : i ≠ .rreg .grid) :
    ({ s with grid := g } : State).answer i = s.answer i := by
  have hn : ({ s with grid := g } : State).nch = s.nch := h
  cases i with
  | plan => simp only [State.answer, hn]
  | rreg n =>
    cases n with
    | grid => exact absurd rfl hi
    | _ => rfl
  | rbyte sp | getbit sp => cases sp <;> rfl
  | _ => rfl

/-- Another GRID of the same channel count passes through every command that neither reads nor writes it. -/
theorem exec_withGrid {i : Instr} {s t : State} {g : BitVec 32} (hr : i ≠ .rreg .grid) (hw : ∀ v, i ≠ .wreg .grid v)
    (hg : gridChannels g = s.nch) (h : exec i s = .next t) :
    exec i { s with grid := g } = .next { t with grid := g } := by
  cases hi : i.wellFormed with
  | false =>
    rw [exec_eq_raise hi] at h ⊢
    cases h
    rfl
  | true =>
    rw [exec_eq_outcome hi] at h ⊢
    cases h
    unfold State.outcome
    rw [causes_withGrid hg]
    cases firstCause (s.causes i) with
    | some e => rfl
    | none =>
      simp only [effect_withGrid hg hw, answer_withGrid hg hr]
      rfl

theorem not_responded_ok_raise (s : State) (e : ErrCode) (d : Nat) : ¬Responded s (s.raise e) 0 d := by
  rintro ⟨hr, -⟩
  have hword := List.singleton_inj.mp (List.append_cancel_left hr)
  have hcode := congrArg codeOf hword
  rw [codeOf_responseWord, codeOf_responseWord] at hcode
  have := errCode_range e
  simp [hcode] at this

/-- Settles O51: `exec_withGrid`, and for WREG GRID a check that does not read GRID. -/
theorem gridActsThroughItsChannelCount : Obligations.GridActsThroughItsChannelCount := by
  intro i s t g hr hg h
  refine ⟨fun hw => exec_withGrid hr hw hg h, ?_⟩
  rintro ⟨v, rfl⟩
  rw [exec_wreg rfl] at h ⊢
  have hlegal : ({ s with grid := g } : State).legalValue .grid v = s.legalValue .grid v := rfl
  rw [hlegal]
  cases hv : s.legalValue .grid v with
  | true =>
    rw [hv] at h
    cases h
    exact ⟨fun _ => rfl, fun hfail => absurd ⟨0, rfl, rfl⟩ hfail⟩
  | false =>
    rw [hv] at h
    cases h
    exact ⟨fun ⟨d, hok⟩ => absurd hok (not_responded_ok_raise s _ d), fun _ => rfl⟩

end Sys2Proof.Machine
end

section
/-! Memory (20_memory.md R30, R41, R43): commands that only read, mixed widths, the frame of memory, and a command done
twice. -/

namespace Sys2Proof.Machine

/-! ### Commands that only read (20_memory.md R41) -/

/-- Settles O16: an error changes ESTICKY and answers no code 0; a success of these four has no effect. -/
theorem readingCommandsChangeNothing : Obligations.ReadingCommandsChangeNothing := by
  intro s t i hi h
  obtain ⟨e, rfl⟩ | ⟨-, rfl⟩ := exec_next_cases h
  · exact ⟨rfl, fun d hok => absurd hok (not_responded_ok_raise s e d)⟩
  · have heffect : s.effect i = s := by
      obtain rfl | ⟨_, rfl⟩ | ⟨_, _, rfl⟩ | ⟨_, _, rfl⟩ := hi <;> rfl
    rw [heffect]
    exact ⟨rfl, fun _ _ => rfl⟩

/-! ### Bytes and bits of one storage (20_memory.md R32, R43) -/

/-- A bit of a space is a bit of a byte of it. -/
theorem getBit_eq_bitOf_readByte (s : State) (sp : Space) (j : Nat) :
    s.getBit sp j = bitOf (s.readByte sp (j / 8)) (j % 8) := rfl

/-- The bits of a byte that has been written. -/
theorem getBit_writeByte_same (s : State) (sp : Space) (a : Nat) (v : Byte) {i : Nat} (hi : i < 8) :
    (s.writeByte sp a v).getBit sp (8 * a + i) = bitOf v i := by
  rw [getBit_eq_bitOf_readByte, show (8 * a + i) / 8 = a by omega, show (8 * a + i) % 8 = i by omega,
    readByte_writeByte, if_pos ⟨rfl, rfl⟩]

/-- A success answers its DATA. -/
theorem responded_respondOk {s : State} {d : Imm} {n : Nat} (h : d.toNat = n) : Responded s (s.respondOk d) 0 n := by
  subst h
  refine ⟨?_, rfl⟩
  rw [BitVec.ofNat_toNat, BitVec.setWidth_eq]
  rfl

theorem sizeOf_le_chMax (s : State) (sp : Space) : s.sizeOf sp ≤ s.chMax.toNat := by
  cases sp with
  | pay => exact Nat.sub_le ..
  | frm | ch => exact Nat.le_refl _

/-- Settles O21: `getBit_writeByte_same` and, by bits, `readByte_setBit`; CH_MAX makes the indices fit IMM. -/
theorem mixedWidthAccessesAgree : Obligations.MixedWidthAccessesAgree := by
  intro s sp hmax
  have hsize := sizeOf_le_chMax s sp
  refine ⟨fun a v i ha hi => ?_, fun j b hj => ?_⟩
  · have hindex : (BitVec.ofNat 40 (8 * a.toNat + i)).toNat = 8 * a.toNat + i := by
      rw [BitVec.toNat_ofNat, Nat.mod_eq_of_lt (by omega)]
    refine ⟨_, _, exec_wbyte_ok ha, exec_getbit_ok ?_, responded_respondOk ?_⟩
    · rw [hindex, sizeOf_respondOk, State.writeByte, sizeOf_setMem]
      omega
    · rw [hindex, getBit_respondOk, getBit_writeByte_same _ _ _ _ hi, bitOf]
      cases v.getLsbD i <;> rfl
  · have haddr : (BitVec.ofNat 40 (j.toNat / 8)).toNat = j.toNat / 8 := by
      rw [BitVec.toNat_ofNat, Nat.mod_eq_of_lt (by omega)]
    refine ⟨_, _, withBit (s.readByte sp (j.toNat / 8)) (j.toNat % 8) b, exec_setbit_ok hj, exec_rbyte_ok ?_,
      responded_respondOk ?_, fun i hi => bitOf_withBit _ _ _ _ hi (Nat.mod_lt _ (by decide))⟩
    · rw [haddr, sizeOf_respondOk, State.setBit, sizeOf_setMem]
      omega
    · rw [haddr, readByte_respondOk, readByte_setBit, if_pos ⟨rfl, rfl⟩]
      exact BitVec.toNat_setWidth_of_le (by decide)

/-! ### The frame of memory (20_memory.md R30) -/

theorem not_has_iff {sp sp' : Space} {base n a : Nat} :
    ¬(⟨sp, base, n⟩ : ByteRange).has sp' a ↔ (sp = sp' → ¬(base ≤ a ∧ a < base + n)) := not_and

/-- Replacing a memory by one that lists an address alike leaves that address alike in every space. -/
theorem lookup_setMem {s : State} {sp sp' : Space} {m : Memory} {a : Nat}
    (h : sp = sp' → Memory.lookup m a = Memory.lookup (s.mem sp) a) :
    Memory.lookup ((s.setMem sp m).mem sp') a = Memory.lookup (s.mem sp') a := by
  rw [mem_setMem]
  split
  · subst sp'; exact h rfl
  · rfl

/-- WBYTE's store, which is also SETBIT's, lists and unlists no address but its own. -/
theorem lookup_writeByte {s : State} {sp sp' : Space} {a b : Nat} {v : Byte} (h : ¬(⟨sp, a, 1⟩ : ByteRange).has sp' b) :
    Memory.lookup ((s.writeByte sp a v).mem sp') b = Memory.lookup (s.mem sp') b :=
  lookup_setMem fun hsp => lookup_write_of_ne fun hab => not_has_iff.mp h hsp (by omega)

/-- Filling a range lists and unlists no address outside it. -/
theorem lookup_setMem_fill {s : State} {sp sp' : Space} {f : Nat → Byte} {base n a : Nat}
    (h : ¬(⟨sp, base, n⟩ : ByteRange).has sp' a) :
    Memory.lookup ((s.setMem sp (Memory.fill sp f base n (s.mem sp))).mem sp') a = Memory.lookup (s.mem sp') a :=
  lookup_setMem fun hsp => lookup_fill_of_not_mem (not_has_iff.mp h hsp)

theorem lookup_buildFrame {s : State} {sp : Space} {a : Nat} (h : ¬(⟨.frm, 0, s.len.toNat + 4⟩ : ByteRange).has sp a) :
    Memory.lookup (s.buildFrame.mem sp) a = Memory.lookup (s.mem sp) a := by
  rw [not_has_iff] at h
  have hhead : ¬(⟨.frm, 0, 4⟩ : ByteRange).has sp a := not_has_iff.mpr fun hsp => by have := h hsp; omega
  have hpayload : ¬(⟨.frm, 4, s.len.toNat⟩ : ByteRange).has sp a := not_has_iff.mpr fun hsp => by have := h hsp; omega
  exact (lookup_setMem_fill hpayload).trans (lookup_setMem_fill (f := be32 s.len) hhead)

theorem lookup_packFrame {s : State} {sp : Space} {a : Nat} (hk : 0 < s.k.toNat)
    (hfrm : ¬(⟨.frm, 0, s.len.toNat + 4⟩ : ByteRange).has sp a)
    (hch : ¬(⟨.ch, 0, ceilDiv s.total s.k.toNat⟩ : ByteRange).has sp a) :
    Memory.lookup (s.packFrame.mem sp) a = Memory.lookup (s.mem sp) a := by
  refine (lookup_setMem (sp := .ch) fun hsp => ?_).trans (lookup_buildFrame hfrm)
  have hout : ceilDiv s.total s.k.toNat ≤ a := by
    have := not_has_iff.mp hch hsp
    omega
  exact lookup_packBits_of_le hk _ _ ((ceilDiv_le_iff hk).mp hout)

theorem lookup_unpackPayload {s : State} {sp : Space} {a : Nat}
    (hfrm : ¬(⟨.frm, 0, s.declaredLen.toNat + 4⟩ : ByteRange).has sp a)
    (hpay : ¬(⟨.pay, 0, s.declaredLen.toNat⟩ : ByteRange).has sp a) :
    Memory.lookup (s.unpackPayload.mem sp) a = Memory.lookup (s.mem sp) a :=
  (lookup_setMem_fill (s := s.unpackFrame) hpay).trans (lookup_setMem_fill hfrm)

/-- A fitting frame needs a bit width of at least 1. -/
theorem k_pos_of_fits {s : State} (h : s.total ≤ s.capBits) : 0 < s.k.toNat := by
  refine Nat.pos_of_ne_zero fun hk => ?_
  rw [State.capBits, hk, Nat.zero_mul, State.total, totalBits] at h
  omega

/-- A success lists and unlists no address outside the ranges the command writes. -/
theorem lookup_effect {s : State} {i : Instr} {sp : Space} {a : Nat} (hc : firstCause (s.causes i) = none)
    (h : ∀ r ∈ s.writeRanges i, ¬r.has sp a) :
    Memory.lookup ((s.effect i).mem sp) a = Memory.lookup (s.mem sp) a := by
  rw [firstCause_eq_none_iff] at hc
  cases i with
  | wbyte sp' d b =>
    have hb : ¬s.sizeOf sp' ≤ b.toNat := by simpa [State.causes] using hc
    exact lookup_writeByte (h _ (by simp [State.writeRanges, hb]))
  | setbit sp' b j =>
    have hj : ¬8 * s.sizeOf sp' ≤ j.toNat := by simpa [State.causes] using hc
    exact lookup_writeByte (h _ (by simp [State.writeRanges, hj]))
  | frame => exact lookup_buildFrame (h _ List.mem_cons_self)
  | embed =>
    obtain ⟨hn, hfit⟩ : s.nch ≠ 0 ∧ s.total ≤ s.capBits := by simpa [State.causes] using hc
    have hranges : s.writeRanges .embed = [⟨.frm, 0, s.len.toNat + 4⟩, ⟨.ch, 0, ceilDiv s.total s.k.toNat⟩] :=
      if_neg (by omega)
    simp only [hranges, List.forall_mem_cons] at h
    obtain ⟨hfrm, hch, -⟩ := h
    exact lookup_packFrame (k_pos_of_fits hfit) hfrm hch
  | extract =>
    obtain ⟨hn, h32, hfit⟩ : s.nch ≠ 0 ∧ 32 ≤ s.capBits ∧ totalBits s.declaredLen.toNat ≤ s.capBits := by
      simpa [State.causes, totalBits] using hc
    have hranges : s.writeRanges .extract = [⟨.frm, 0, s.declaredLen.toNat + 4⟩, ⟨.pay, 0, s.declaredLen.toNat⟩] :=
      if_neg (by omega)
    simp only [hranges, List.forall_mem_cons] at h
    obtain ⟨hfrm, hpay, -⟩ := h
    exact lookup_unpackPayload hfrm hpay
  | wreg n v => cases n <;> rfl
  | nop | rreg | rbyte | getbit | plan => rfl

/-- Settles O48: an error writes no memory, and a success by `lookup_effect`. -/
theorem bytesOutsideTheWriteRangesAreKept : Obligations.BytesOutsideTheWriteRangesAreKept := by
  intro i s t sp a h hout
  obtain ⟨e, rfl⟩ | ⟨hc, rfl⟩ := exec_next_cases h
  · exact readByte_raise s e sp a
  · simp only [State.readByte, Memory.read, mem_respondOk, lookup_effect hc hout]

/-! ### A command done twice (20_memory.md R41) -/

/-- Setting a bit to the value it has changes nothing. -/
theorem withBit_bitOf (v : Byte) {i : Nat} (hi : i < 8) : withBit v i (bitOf v i) = v := by
  refine byte_ext fun j hj => ?_
  rw [bitOf_withBit _ _ _ _ hj hi]
  split
  · subst j; rfl
  · rfl

/-- Writing the byte that is there changes nothing. -/
theorem write_eq_self {sp : Space} {m : Memory} {a : Nat} {v : Byte} (hm : Memory.wf sp m) (hv : Memory.read sp m a = v) :
    Memory.write sp m a v = m := by
  refine eq_of_read_eq (wf_write hm a v) hm fun b => ?_
  rw [read_write]
  split
  · subst b; exact hv.symm
  · rfl

/-- Filling a range with the bytes that are there changes nothing. -/
theorem fill_eq_self {sp : Space} {m : Memory} {f : Nat → Byte} {base n : Nat} (hm : Memory.wf sp m)
    (hf : ∀ i < n, Memory.read sp m (base + i) = f i) : Memory.fill sp f base n m = m := by
  induction n with
  | zero => rfl
  | succ n ih =>
    rw [Memory.fill, ih fun i hi => hf i (Nat.lt_succ_of_lt hi)]
    exact write_eq_self hm (hf n (Nat.lt_succ_self n))

/-- Packing the stream that the channels hold changes nothing. -/
theorem packBits_eq_self {k n : Nat} {frm ch : Memory} (hk : 0 < k) (hk8 : k ≤ 8) (hch : Memory.wf .ch ch)
    (hbits : ∀ j < n, streamBit ch k j = Memory.getBit .frm frm j) : packBits k frm n ch = ch := by
  induction n with
  | zero => rfl
  | succ n ih =>
    have hpos : n % k < 8 := (Nat.mod_lt n hk).trans_le hk8
    rw [packBits, ih fun j hj => hbits j (Nat.lt_succ_of_lt hj), ← hbits n (Nat.lt_succ_self n)]
    exact write_eq_self hch (withBit_bitOf _ hpos).symm

theorem setMem_mem (s : State) (sp : Space) : s.setMem sp (s.mem sp) = s := by cases sp <;> rfl

theorem writeByte_eq_self {s : State} {sp : Space} {a : Nat} {v : Byte} (hm : Memory.wf sp (s.mem sp))
    (hv : s.readByte sp a = v) : s.writeByte sp a v = s := by
  rw [State.writeByte, write_eq_self hm hv, setMem_mem]

theorem setBit_eq_self {s : State} {sp : Space} {j : Nat} {b : Bool} (hm : Memory.wf sp (s.mem sp))
    (hb : s.getBit sp j = b) : s.setBit sp j b = s := by
  subst hb
  exact writeByte_eq_self hm (withBit_bitOf _ (Nat.mod_lt _ (by decide))).symm

theorem buildFrame_eq_self {s : State} (hm : Memory.wf .frm s.frm)
    (hframe : ∀ a < s.len.toNat + 4, s.readByte .frm a = frameByte s.len (s.readByte .pay) a) : s.buildFrame = s := by
  have hhead : Memory.fill .frm (be32 s.len) 0 4 s.frm = s.frm := fill_eq_self hm fun i hi => by
    rw [Nat.zero_add]
    exact (hframe i (by omega)).trans (if_pos hi)
  have hpayload : Memory.fill .frm (s.readByte .pay) 4 s.len.toNat s.frm = s.frm := fill_eq_self hm fun i hi => by
    refine (hframe (4 + i) (by omega)).trans ?_
    rw [frameByte, if_neg (by omega), Nat.add_sub_cancel_left]
  rw [State.buildFrame, hhead, hpayload]

theorem buildFrame_buildFrame {s : State} (hm : Memory.wf .frm s.buildFrame.frm) :
    s.buildFrame.buildFrame = s.buildFrame :=
  buildFrame_eq_self hm fun a ha => (read_buildFrame s a).trans (if_pos ha)

theorem packFrame_packFrame {s : State} (hk : 0 < s.k.toNat) (hk8 : s.k.toNat ≤ 8)
    (hfrm : Memory.wf .frm s.packFrame.frm) (hch : Memory.wf .ch s.packFrame.ch) :
    s.packFrame.packFrame = s.packFrame := by
  have hframe : s.packFrame.buildFrame = s.packFrame :=
    buildFrame_eq_self hfrm fun a ha => (read_buildFrame s a).trans (if_pos ha)
  have hpack : packBits s.k.toNat s.packFrame.frm s.total s.packFrame.ch = s.packFrame.ch :=
    packBits_eq_self hk hk8 hch fun j hj => streamBit_packBits hk hk8 _ _ hj
  rw [State.packFrame, hframe]
  exact congrArg (s.packFrame.setMem .ch) hpack

theorem unpackFrame_eq_self {s : State} (hm : Memory.wf .frm s.frm)
    (hframe : ∀ a < s.declaredLen.toNat + 4, s.readByte .frm a = streamByte s.ch s.k.toNat a) : s.unpackFrame = s := by
  have hfill : Memory.fill .frm (streamByte s.ch s.k.toNat) 0 (s.declaredLen.toNat + 4) s.frm = s.frm :=
    fill_eq_self hm fun i hi => by
      rw [Nat.zero_add]
      exact hframe i hi
  rw [State.unpackFrame, hfill]

theorem unpackPayload_unpackPayload {s : State} (hfrm : Memory.wf .frm s.unpackPayload.frm)
    (hpay : Memory.wf .pay s.unpackPayload.pay) : s.unpackPayload.unpackPayload = s.unpackPayload := by
  have hframe : s.unpackPayload.unpackFrame = s.unpackPayload :=
    unpackFrame_eq_self hfrm fun a ha => (read_unpackFrame s a).trans (if_pos ha)
  have hfill : Memory.fill .pay (fun n => s.unpackPayload.readByte .frm (4 + n)) 0 s.declaredLen.toNat s.unpackPayload.pay =
      s.unpackPayload.pay := fill_eq_self hpay fun i hi => by
    rw [Nat.zero_add, read_unpackPayload, if_pos hi]
    exact ((read_unpackFrame s (4 + i)).trans (if_pos (by omega))).symm
  rw [State.unpackPayload, hframe]
  exact congrArg (s.unpackPayload.setMem .pay) hfill

/-- A success writes what a second one would write. -/
theorem effect_effect {s : State} {i : Instr} (hs : s.Inv) (hc : firstCause (s.causes i) = none) :
    (s.effect i).effect i = s.effect i := by
  have ⟨⟨_, ⟨hk, hk8⟩, _⟩, _⟩ := hs
  have hwf := fun sp => ((inv_iff.mp (inv_effect hs hc)).2 sp).1
  cases i with
  | wreg n v => cases n <;> rfl
  | wbyte sp d a => exact writeByte_eq_self (hwf sp) (by rw [State.effect, readByte_writeByte, if_pos ⟨rfl, rfl⟩])
  | setbit sp b j => exact setBit_eq_self (hwf sp) (by rw [State.effect, getBit_setBit_state, if_pos ⟨rfl, rfl⟩])
  | frame => exact buildFrame_buildFrame (hwf .frm)
  | embed => exact packFrame_packFrame hk hk8 (hwf .frm) (hwf .ch)
  | extract => exact unpackPayload_unpackPayload (hwf .frm) (hwf .pay)
  | nop | rreg | rbyte | getbit | plan => rfl

/-- The causes of a command read nothing that its success writes. -/
theorem causes_effect_respondOk (s : State) (i : Instr) (d : Imm) :
    ((s.effect i).respondOk d).causes i = s.causes i := by
  cases i with
  | wreg n v => cases n <;> rfl
  | rbyte sp | getbit sp | wbyte sp | setbit sp => simp [State.causes, State.effect, State.writeByte, State.setBit]
  | nop | rreg | frame | plan | embed | extract => rfl

/-- DATA reads nothing that the command's success writes. -/
theorem answer_effect_respondOk (s : State) (i : Instr) (d : Imm) :
    ((s.effect i).respondOk d).answer i = s.answer i := by
  cases i with
  | rreg n => cases n <;> rfl
  | rbyte sp | getbit sp => cases sp <;> rfl
  | nop | wreg | wbyte | setbit | frame | plan | embed | extract => rfl

/-- No effect reads or writes the response port or the index. -/
theorem effect_respondOk (s : State) (i : Instr) (d : Imm) : (s.respondOk d).effect i = (s.effect i).respondOk d := by
  cases i with
  | wreg n => cases n <;> rfl
  | wbyte sp | setbit sp => cases sp <;> rfl
  | nop | rreg | rbyte | getbit | frame | plan | embed | extract => rfl

/-- A command none of whose causes holds succeeds. -/
theorem exec_eq_respondOk {s : State} {i : Instr} (hc : firstCause (s.causes i) = none) :
    exec i s = .next ((s.effect i).respondOk (s.answer i)) := by
  have hi : i.wellFormed = true := by
    cases i with
    | wreg n v =>
      cases n with
      | esticky | chmax => cases hc
      | k | len | grid => rfl
    | _ => rfl
  rw [exec_eq_outcome hi, State.outcome, hc]

theorem errCode_ne_zero (e : ErrCode) : e.code ≠ 0 := by cases e <;> decide

/-- Settles O53: the second time no cause holds, the effect is there already, and the answer is the same. -/
theorem successfulCommandsAreIdempotent : Obligations.SuccessfulCommandsAreIdempotent := by
  intro i s t r hs h hr hcode
  obtain ⟨e, rfl⟩ | ⟨hc, rfl⟩ := exec_next_cases h
  · have hword : responseWord e.code 0 = r := by simpa using hr
    rw [← hword, codeOf_responseWord] at hcode
    exact absurd hcode (errCode_ne_zero e)
  · have hword : responseWord 0 (s.answer i) = r := by simpa using hr
    subst hword
    rw [exec_eq_respondOk (by rw [causes_effect_respondOk, hc]), answer_effect_respondOk, effect_respondOk,
      effect_effect hs hc]
    rfl

end Sys2Proof.Machine
end

section
/-! Encoding (30_encoding.md R50 to R56): the fields of a word, the decoder and the encoder as inverses, the opcode table,
illegal words. -/

namespace Sys2Proof

open Machine

/-! ### The fields of a command word (R50) -/

theorem opcOf_toNat (w : Word) : (opcOf w).toNat = w.toNat / 2 ^ 56 := by
  have := w.isLt
  rw [opcOf, BitVec.extractLsb'_toNat, Nat.shiftRight_eq_div_pow]
  omega

theorem aOf_toNat (w : Word) : (aOf w).toNat = w.toNat / 2 ^ 48 % 2 ^ 8 := by
  rw [aOf, BitVec.extractLsb'_toNat, Nat.shiftRight_eq_div_pow]

theorem bOf_toNat (w : Word) : (bOf w).toNat = w.toNat / 2 ^ 40 % 2 ^ 8 := by
  rw [bOf, BitVec.extractLsb'_toNat, Nat.shiftRight_eq_div_pow]

theorem immOf_toNat (w : Word) : (immOf w).toNat = w.toNat % 2 ^ 40 := by
  rw [immOf, BitVec.extractLsb'_toNat, Nat.shiftRight_zero]

/-- A word is the sum of its fields. -/
theorem word_toNat (w : Word) :
    w.toNat = (opcOf w).toNat * 2 ^ 56 + (aOf w).toNat * 2 ^ 48 + (bOf w).toNat * 2 ^ 40 + (immOf w).toNat := by
  rw [opcOf_toNat, aOf_toNat, bOf_toNat, immOf_toNat]
  omega

theorem makeWord_toNat (o a b : Byte) (m : Imm) :
    (makeWord o a b m).toNat = o.toNat * 2 ^ 56 + a.toNat * 2 ^ 48 + b.toNat * 2 ^ 40 + m.toNat := by
  rw [word_toNat, opcOf_makeWord, aOf_makeWord, bOf_makeWord, immOf_makeWord]

/-- A word is made of its fields. -/
theorem makeWord_fields (w : Word) : makeWord (opcOf w) (aOf w) (bOf w) (immOf w) = w :=
  BitVec.eq_of_toNat_eq (by rw [makeWord_toNat, ← word_toNat])

/-- Settles O1: `makeWord_toNat`, `makeWord_fields` and the fields as remainders. -/
theorem commandWordFields : Obligations.CommandWordFields :=
  ⟨fun o a b m => ⟨makeWord_toNat o a b m, opcOf_makeWord o a b m, aOf_makeWord o a b m, bOf_makeWord o a b m,
    immOf_makeWord o a b m⟩,
    fun w => ⟨makeWord_fields w, opcOf_toNat w, aOf_toNat w, bOf_toNat w, immOf_toNat w⟩⟩

/-! ### The opcode map and the numbers of field A (R52, R53) -/

@[simp] theorem opcode_ofByte_toByte (o : Opcode) : Opcode.ofByte o.toByte = some o := by cases o <;> rfl

theorem opcode_ofByte_eq_some_iff {v : Byte} {o : Opcode} : Opcode.ofByte v = some o ↔ v = o.toByte := by
  refine ⟨fun h => ?_, fun h => h ▸ opcode_ofByte_toByte o⟩
  unfold Opcode.ofByte at h
  repeat' split at h
  all_goals cases h
  all_goals assumption

@[simp] theorem reg_ofByte_toByte (n : Reg) : Reg.ofByte n.toByte = some n := by cases n <;> rfl

theorem reg_ofByte_eq_some_iff {v : Byte} {n : Reg} : Reg.ofByte v = some n ↔ v = n.toByte := by
  refine ⟨fun h => ?_, fun h => h ▸ reg_ofByte_toByte n⟩
  unfold Reg.ofByte at h
  repeat' split at h
  all_goals cases h
  all_goals assumption

@[simp] theorem space_ofByte_toByte (sp : Space) : Space.ofByte sp.toByte = some sp := by cases sp <;> rfl

theorem space_ofByte_eq_some_iff {v : Byte} {sp : Space} : Space.ofByte v = some sp ↔ v = sp.toByte := by
  refine ⟨fun h => ?_, fun h => h ▸ space_ofByte_toByte sp⟩
  unfold Space.ofByte at h
  repeat' split at h
  all_goals cases h
  all_goals assumption

/-! ### The decoder and the encoder (R55, R56, R61) -/

/-- A word is given by its fields. -/
theorem makeWord_eq_iff {o a b : Byte} {m : Imm} {w : Word} :
    makeWord o a b m = w ↔ opcOf w = o ∧ aOf w = a ∧ bOf w = b ∧ immOf w = m := by
  constructor
  · rintro rfl
    exact ⟨opcOf_makeWord .., aOf_makeWord .., bOf_makeWord .., immOf_makeWord ..⟩
  · rintro ⟨rfl, rfl, rfl, rfl⟩
    exact makeWord_fields w

/-- B[7:1] is zero exactly where B is 0 or 1. -/
theorem extractLsb'_one_seven_eq_zero_iff {v : Byte} : v.extractLsb' 1 7 = 0#7 ↔ v.toNat ≤ 1 := by
  have := v.isLt
  rw [← BitVec.toNat_inj, BitVec.extractLsb'_toNat, Nat.shiftRight_eq_div_pow]
  show v.toNat / 2 ^ 1 % 2 ^ 7 = 0 ↔ v.toNat ≤ 1
  omega

/-- B of format BW is its data bit. -/
theorem eq_bit_of_toNat_le_one {v : Byte} (h : v.toNat ≤ 1) : v = if v.getLsbD 0 then 1 else 0 := by
  obtain h0 | h1 : v.toNat = 0 ∨ v.toNat = 1 := by omega
  · obtain rfl : v = 0 := BitVec.eq_of_toNat_eq h0
    rfl
  · obtain rfl : v = 1 := BitVec.eq_of_toNat_eq h1
    rfl

theorem withSpace_eq_ok_iff {w : Word} {mk : Space → Instr} {i : Instr} :
    withSpace w mk = .ok i ↔ ∃ sp : Space, aOf w = sp.toByte ∧ mk sp = i := by
  unfold withSpace
  simp only [← space_ofByte_eq_some_iff]
  cases Space.ofByte (aOf w) <;> simp

theorem decodeOperands_rreg_eq_ok_iff {w : Word} {i : Instr} :
    decodeOperands .rreg w = .ok i ↔ ∃ n : Reg, aOf w = n.toByte ∧ .rreg n = i := by
  unfold decodeOperands
  simp only [← reg_ofByte_eq_some_iff]
  cases Reg.ofByte (aOf w) <;> simp

theorem decodeOperands_wreg_eq_ok_iff {w : Word} {i : Instr} :
    decodeOperands .wreg w = .ok i ↔ ∃ n : Reg, aOf w = n.toByte ∧ n.writable = true ∧ .wreg n (immOf w) = i := by
  unfold decodeOperands
  simp only [← reg_ofByte_eq_some_iff]
  cases Reg.ofByte (aOf w) with
  | none => simp
  | some n => cases hn : n.writable <;> simp [hn]

/-- The three steps of decoding: OPC, the unused fields, field A and the operands. -/
theorem decode_eq_ok_iff {w : Word} {i : Instr} :
    decode w = .ok i ↔
      ∃ o : Opcode, opcOf w = o.toByte ∧ o.format.unusedZero w = true ∧ decodeOperands o w = .ok i := by
  unfold decode
  simp only [← opcode_ofByte_eq_some_iff]
  cases Opcode.ofByte (opcOf w) with
  | none => simp
  | some o => cases hz : o.format.unusedZero w <;> simp [hz]

/-- The operands of a word whose unused fields are zero are those of a well-formed command with that word. -/
theorem encode_of_decodeOperands {o : Opcode} {w : Word} {i : Instr} (ho : opcOf w = o.toByte)
    (hz : o.format.unusedZero w = true) (h : decodeOperands o w = .ok i) :
    encode i = w ∧ i.wellFormed = true := by
  cases o with
  | nop | frame | plan | embed | extract =>
    cases h
    simp only [Opcode.format, Format.unusedZero, Bool.and_eq_true, beq_iff_eq] at hz
    obtain ⟨⟨ha, hb⟩, hm⟩ := hz
    exact ⟨makeWord_eq_iff.mpr ⟨ho, ha, hb, hm⟩, rfl⟩
  | rreg =>
    obtain ⟨n, ha, rfl⟩ := decodeOperands_rreg_eq_ok_iff.mp h
    simp only [Opcode.format, Format.unusedZero, Bool.and_eq_true, beq_iff_eq] at hz
    obtain ⟨hb, hm⟩ := hz
    exact ⟨makeWord_eq_iff.mpr ⟨ho, ha, hb, hm⟩, rfl⟩
  | wreg =>
    obtain ⟨n, ha, hn, rfl⟩ := decodeOperands_wreg_eq_ok_iff.mp h
    exact ⟨makeWord_eq_iff.mpr ⟨ho, ha, eq_of_beq hz, rfl⟩, hn⟩
  | rbyte | getbit =>
    obtain ⟨sp, ha, rfl⟩ := withSpace_eq_ok_iff.mp h
    exact ⟨makeWord_eq_iff.mpr ⟨ho, ha, eq_of_beq hz, rfl⟩, rfl⟩
  | wbyte =>
    obtain ⟨sp, ha, rfl⟩ := withSpace_eq_ok_iff.mp h
    exact ⟨makeWord_eq_iff.mpr ⟨ho, ha, rfl, rfl⟩, rfl⟩
  | setbit =>
    obtain ⟨sp, ha, rfl⟩ := withSpace_eq_ok_iff.mp h
    have hb := eq_bit_of_toNat_le_one (extractLsb'_one_seven_eq_zero_iff.mp (eq_of_beq hz))
    exact ⟨makeWord_eq_iff.mpr ⟨ho, ha, hb, rfl⟩, rfl⟩

/-- Settles O5: `encode_of_decodeOperands`, after the first two steps of decoding. -/
theorem encodeOfDecode : Obligations.EncodeOfDecode := by
  intro w i h
  obtain ⟨o, ho, hz, hop⟩ := decode_eq_ok_iff.mp h
  exact encode_of_decodeOperands ho hz hop

/-- The word of a command passes the first two steps of decoding (R61). -/
theorem encode_fields (i : Instr) :
    opcOf (encode i) = i.opcode.toByte ∧ i.opcode.format.unusedZero (encode i) = true := by
  have h : Laws.Encoding.Statement i := by
    cases i with
    | nop => exact Laws.Encoding.nop
    | rreg n => exact Laws.Encoding.rreg n
    | wreg n v => exact Laws.Encoding.wreg n v
    | rbyte sp a => exact Laws.Encoding.rbyte sp a
    | wbyte sp d a => exact Laws.Encoding.wbyte sp d a
    | getbit sp j => exact Laws.Encoding.getbit sp j
    | setbit sp b j => exact Laws.Encoding.setbit sp b j
    | frame => exact Laws.Encoding.frame
    | plan => exact Laws.Encoding.plan
    | embed => exact Laws.Encoding.embed
    | extract => exact Laws.Encoding.extract
  exact ⟨opcode_ofByte_eq_some_iff.mp h.1, h.2⟩

/-- The operands of a well-formed command are read back from its word. -/
theorem decodeOperands_encode {i : Instr} (hi : i.wellFormed = true) : decodeOperands i.opcode (encode i) = .ok i := by
  cases i with
  | nop | frame | plan | embed | extract => rfl
  | rreg n => exact decodeOperands_rreg_eq_ok_iff.mpr ⟨n, aOf_makeWord .., rfl⟩
  | wreg n v =>
    exact decodeOperands_wreg_eq_ok_iff.mpr ⟨n, aOf_makeWord .., hi, by rw [encode, immOf_makeWord]⟩
  | rbyte sp a | getbit sp a =>
    exact withSpace_eq_ok_iff.mpr ⟨sp, aOf_makeWord .., by rw [encode, immOf_makeWord]⟩
  | wbyte sp d a =>
    exact withSpace_eq_ok_iff.mpr ⟨sp, aOf_makeWord .., by rw [encode, bOf_makeWord, immOf_makeWord]⟩
  | setbit sp b j =>
    refine withSpace_eq_ok_iff.mpr ⟨sp, aOf_makeWord .., ?_⟩
    rw [encode, bOf_makeWord, immOf_makeWord]
    cases b <;> rfl

/-- Settles O4: the word of a command passes the three steps of decoding. -/
theorem decodeOfEncode : Obligations.DecodeOfEncode := fun i hi =>
  decode_eq_ok_iff.mpr ⟨i.opcode, (encode_fields i).1, (encode_fields i).2, decodeOperands_encode hi⟩

/-! ### The legal words, in terms of their fields (R53, R56) -/

/-- The greatest value of field A a command accepts; none where its format does not use A (R53). -/
def Opcode.maxA : Opcode → Option Nat
  | .rreg => some 4
  | .wreg | .rbyte | .wbyte | .getbit | .setbit => some 2
  | .nop | .frame | .plan | .embed | .extract => none

/-- The fields of a legal word with the operation code `o`: nothing in an unused field, A in range (R55, R56). -/
def Opcode.Accepts (o : Opcode) (w : Word) : Prop :=
  o.format.unusedZero w = true ∧ ∀ n ∈ o.maxA, (aOf w).toNat ≤ n

theorem exists_reg_iff {v : Byte} : (∃ n : Reg, v = n.toByte) ↔ v.toNat ≤ 4 := by
  constructor
  · rintro ⟨n, rfl⟩
    cases n <;> decide
  · intro h
    interval_cases hv : v.toNat
    exacts [⟨.k, BitVec.eq_of_toNat_eq hv⟩, ⟨.len, BitVec.eq_of_toNat_eq hv⟩, ⟨.grid, BitVec.eq_of_toNat_eq hv⟩,
      ⟨.esticky, BitVec.eq_of_toNat_eq hv⟩, ⟨.chmax, BitVec.eq_of_toNat_eq hv⟩]

theorem writable_iff {n : Reg} : n.writable = true ↔ n.toByte.toNat ≤ 2 := by cases n <;> decide

theorem exists_writable_reg_iff {v : Byte} : (∃ n : Reg, v = n.toByte ∧ n.writable = true) ↔ v.toNat ≤ 2 := by
  constructor
  · rintro ⟨n, rfl, hn⟩
    exact writable_iff.mp hn
  · intro h
    obtain ⟨n, rfl⟩ := exists_reg_iff.mpr (Nat.le_trans h (by decide))
    exact ⟨n, rfl, writable_iff.mpr h⟩

theorem exists_space_iff {v : Byte} : (∃ sp : Space, v = sp.toByte) ↔ v.toNat ≤ 2 := by
  constructor
  · rintro ⟨sp, rfl⟩
    cases sp <;> decide
  · intro h
    interval_cases hv : v.toNat
    exacts [⟨.pay, BitVec.eq_of_toNat_eq hv⟩, ⟨.frm, BitVec.eq_of_toNat_eq hv⟩, ⟨.ch, BitVec.eq_of_toNat_eq hv⟩]

theorem exists_withSpace_iff {w : Word} {mk : Space → Instr} :
    (∃ i, withSpace w mk = .ok i) ↔ (aOf w).toNat ≤ 2 := by
  simp only [withSpace_eq_ok_iff, ← exists_space_iff]
  rw [exists_comm]
  simp

/-- Step (3) of decoding succeeds exactly where A is in range. -/
theorem exists_decodeOperands_iff {o : Opcode} {w : Word} :
    (∃ i, decodeOperands o w = .ok i) ↔ ∀ n ∈ o.maxA, (aOf w).toNat ≤ n := by
  cases o with
  | nop | frame | plan | embed | extract => simp [decodeOperands, Opcode.maxA]
  | rreg =>
    simp only [decodeOperands_rreg_eq_ok_iff, Opcode.maxA, Option.mem_some_iff, forall_eq', ← exists_reg_iff]
    rw [exists_comm]
    simp
  | wreg =>
    simp only [decodeOperands_wreg_eq_ok_iff, Opcode.maxA, Option.mem_some_iff, forall_eq', ← exists_writable_reg_iff]
    rw [exists_comm]
    simp
  | rbyte | wbyte | getbit | setbit =>
    simp only [decodeOperands, exists_withSpace_iff, Opcode.maxA, Option.mem_some_iff, forall_eq']

/-- The operation code of a word is that of the command it decodes to. -/
theorem opcode_of_decodeOperands {o : Opcode} {w : Word} {i : Instr} (ho : opcOf w = o.toByte)
    (hz : o.format.unusedZero w = true) (h : decodeOperands o w = .ok i) : i.opcode = o := by
  obtain ⟨rfl, -⟩ := encode_of_decodeOperands ho hz h
  have hopc : i.opcode.toByte = o.toByte := (encode_fields i).1.symm.trans ho
  simpa using opcode_ofByte_eq_some_iff.mpr hopc

/-- A word decodes to a command with the operation code `o` exactly where OPC is its number and the other fields are ones
it accepts. -/
theorem exists_decode_iff {w : Word} {o : Opcode} :
    (∃ i, decode w = .ok i ∧ i.opcode = o) ↔ opcOf w = o.toByte ∧ o.Accepts w := by
  constructor
  · rintro ⟨i, hd, rfl⟩
    obtain ⟨o, ho, hz, hop⟩ := decode_eq_ok_iff.mp hd
    rw [opcode_of_decodeOperands ho hz hop]
    exact ⟨ho, hz, exists_decodeOperands_iff.mp ⟨i, hop⟩⟩
  · rintro ⟨ho, hz, ha⟩
    obtain ⟨i, hop⟩ := exists_decodeOperands_iff.mpr ha
    exact ⟨i, decode_eq_ok_iff.mpr ⟨o, ho, hz, hop⟩, opcode_of_decodeOperands ho hz hop⟩

/-! ### The opcode table (R52) -/

/-- The mask of a format: OPC and every bit the format does not use. -/
def Format.mask : Format → Word
  | .z => makeWord 0xFF 0xFF 0xFF 0xFFFFFFFFFF
  | .rr => makeWord 0xFF 0x00 0xFF 0xFFFFFFFFFF
  | .rw | .mr | .br => makeWord 0xFF 0x00 0xFF 0
  | .mw => makeWord 0xFF 0x00 0x00 0
  | .bw => makeWord 0xFF 0x00 0xFE 0

/-- The table's row of an operation code. -/
def Opcode.row (o : Opcode) : Row := ⟨o, makeWord o.toByte 0 0 0, o.format.mask, o.maxA⟩

/-- The operation codes, in the order of the table. -/
def Opcode.all : List Opcode :=
  [.nop, .rreg, .wreg, .rbyte, .wbyte, .getbit, .setbit, .frame, .plan, .embed, .extract]

theorem Opcode.mem_all (o : Opcode) : o ∈ Opcode.all := by cases o <;> decide

theorem opcodeTable_eq : opcodeTable = Opcode.all.map Opcode.row := by decide

/-- The table has one row for each operation code. -/
theorem mem_opcodeTable_iff {r : Row} : r ∈ opcodeTable ↔ ∃ o : Opcode, o.row = r := by
  rw [opcodeTable_eq, List.mem_map]
  exact exists_congr fun o => and_iff_right o.mem_all

theorem opcOf_and (w v : Word) : opcOf (w &&& v) = opcOf w &&& opcOf v := BitVec.extractLsb'_and
theorem aOf_and (w v : Word) : aOf (w &&& v) = aOf w &&& aOf v := BitVec.extractLsb'_and
theorem bOf_and (w v : Word) : bOf (w &&& v) = bOf w &&& bOf v := BitVec.extractLsb'_and
theorem immOf_and (w v : Word) : immOf (w &&& v) = immOf w &&& immOf v := BitVec.extractLsb'_and

/-- A masked word, by fields. -/
theorem and_makeWord_eq_iff {w : Word} {o a b o' a' b' : Byte} {m m' : Imm} :
    w &&& makeWord o a b m = makeWord o' a' b' m' ↔
      opcOf w &&& o = o' ∧ aOf w &&& a = a' ∧ bOf w &&& b = b' ∧ immOf w &&& m = m' := by
  rw [eq_comm, makeWord_eq_iff, opcOf_and, aOf_and, bOf_and, immOf_and, opcOf_makeWord, aOf_makeWord, bOf_makeWord,
    immOf_makeWord]

/-- A mask of all bits changes no byte. -/
theorem byte_and_ff (v : Byte) : v &&& 0xFF#8 = v := BitVec.and_allOnes

/-- A mask of all bits changes no immediate. -/
theorem imm_and_ff (m : Imm) : m &&& 0xFFFFFFFFFF#40 = m := BitVec.and_allOnes

/-- The mask of B in format BW sees B[7:1]. -/
theorem byte_and_fe_eq_zero_iff : ∀ v : Byte, v &&& 0xFE#8 = 0#8 ↔ v.extractLsb' 1 7 = 0#7 := by decide

/-- The mask of a format selects the words with the row's OPC and nothing in an unused field. -/
theorem and_mask_eq_iff {w : Word} {f : Format} {c : Byte} :
    w &&& f.mask = makeWord c 0 0 0 ↔ opcOf w = c ∧ f.unusedZero w = true := by
  cases f <;>
    simp [Format.mask, and_makeWord_eq_iff, Format.unusedZero, byte_and_ff, imm_and_ff, byte_and_fe_eq_zero_iff, and_assoc]

/-- A word selects a row: mask and match, and the constraint on A where there is one. -/
theorem selects_iff {r : Row} {w : Word} :
    r.selects w = true ↔ w &&& r.mask = r.pattern ∧ ∀ n ∈ r.maxA, (aOf w).toNat ≤ n := by
  unfold Row.selects
  cases r.maxA <;> simp

/-- A word selects the row of an operation code exactly where it has its number and the other fields are ones it accepts. -/
theorem row_selects_iff {o : Opcode} {w : Word} : o.row.selects w = true ↔ opcOf w = o.toByte ∧ o.Accepts w :=
  selects_iff.trans <| (and_congr_left' and_mask_eq_iff).trans and_assoc

/-- A word decodes, or it is illegal. -/
theorem decode_error_iff {w : Word} : (∃ why, decode w = .error why) ↔ ∀ i, decode w ≠ .ok i := by
  cases decode w <;> simp

/-- A word is illegal exactly where there is no operation code with its number that accepts its other fields. -/
theorem illegal_iff {w : Word} : (∃ why, decode w = .error why) ↔ ∀ o : Opcode, opcOf w = o.toByte → ¬o.Accepts w := by
  rw [decode_error_iff]
  constructor
  · intro h o ho ha
    obtain ⟨i, hd, -⟩ := exists_decode_iff.mpr ⟨ho, ha⟩
    exact h i hd
  · intro h i hd
    obtain ⟨ho, ha⟩ := exists_decode_iff.mp ⟨i, hd, rfl⟩
    exact h _ ho ha

/-- Settles O2: a row's mask sees OPC and the unused fields, and its constraint is the bound on A. -/
theorem opcodeTableSelectsTheCommand : Obligations.OpcodeTableSelectsTheCommand := by
  intro w
  constructor
  · intro r hr
    obtain ⟨o, rfl⟩ := mem_opcodeTable_iff.mp hr
    exact row_selects_iff.trans exists_decode_iff.symm
  · intro h
    refine illegal_iff.mpr fun o ho => absurd ?_ (h o.row (mem_opcodeTable_iff.mpr ⟨o, rfl⟩))
    exact (opcOf_makeWord ..).trans ho.symm

/-! ### Illegal words (R55, R56) -/

theorem opcode_toByte_inj {o o' : Opcode} : o.toByte = o'.toByte ↔ o = o' := by
  rw [← opcode_ofByte_eq_some_iff, opcode_ofByte_toByte, Option.some_inj]

/-- Item 1 of R56: the numbers of the opcode map. -/
theorem mem_opcodes_iff {v : Byte} :
    v ∈ ([0x00, 0x01, 0x02, 0x03, 0x04, 0x10, 0x11, 0x20, 0x21, 0x22, 0x23] : List Byte) ↔
      ∃ o : Opcode, v = o.toByte := by
  refine (List.mem_map (l := Opcode.all) (f := Opcode.toByte)).trans (exists_congr fun o => ?_)
  rw [and_iff_right o.mem_all, eq_comm]

/-- Where OPC is in the map, the other fields decide. -/
theorem illegal_iff_not_accepts {o : Opcode} {w : Word} (ho : opcOf w = o.toByte) :
    (∃ why, decode w = .error why) ↔ ¬o.Accepts w := by
  simp only [illegal_iff, ho, opcode_toByte_inj, forall_eq']

/-- Settles O3: by the operation code that OPC names; the step is `raise`. -/
theorem illegalWordsCompleteWithIllegalCommand : Obligations.IllegalWordsCompleteWithIllegalCommand := by
  intro w
  constructor
  · by_cases hmem : ∃ o : Opcode, opcOf w = o.toByte
    · obtain ⟨o, ho⟩ := hmem
      rw [illegal_iff_not_accepts ho, ho]
      cases o <;>
        simp [Opcode.toByte, Opcode.Accepts, Opcode.format, Format.unusedZero, Opcode.maxA,
          extractLsb'_one_seven_eq_zero_iff, -not_and, not_and_or, or_assoc]
    · exact iff_of_true (illegal_iff.mpr fun o ho => absurd ⟨o, ho⟩ hmem) (.inl (mt mem_opcodes_iff.mp hmem))
  · rintro s rest hin ⟨why, hd⟩
    rw [step_illegal hin hd]
    rfl

end Sys2Proof
end

section
/-! The response word (30_encoding.md R57). -/

namespace Sys2Proof.Machine

theorem codeOf_toNat (r : Word) : (codeOf r).toNat = r.toNat / 2 ^ 56 := opcOf_toNat r

theorem dataOf_toNat (r : Word) : (dataOf r).toNat = r.toNat % 2 ^ 40 := immOf_toNat r

/-- A word with bits 55:40 zero is the sum of CODE and DATA. -/
theorem response_toNat {r : Word} (hz : r.extractLsb' 40 16 = 0) :
    r.toNat = (codeOf r).toNat * 2 ^ 56 + (dataOf r).toNat := by
  have hbits : r.toNat / 2 ^ 40 % 2 ^ 16 = 0 := by
    rw [← Nat.shiftRight_eq_div_pow, ← BitVec.extractLsb'_toNat, hz]
    rfl
  rw [codeOf_toNat, dataOf_toNat]
  omega

theorem wellFormedResponse_ok (d : Imm) : WellFormedResponse (responseWord 0 d) :=
  ⟨by rw [codeOf_responseWord]; decide, zeros_responseWord 0 d, fun h => absurd (codeOf_responseWord 0 d) h⟩

theorem wellFormedResponse_error (e : ErrCode) : WellFormedResponse (responseWord e.code 0) :=
  ⟨by rw [codeOf_responseWord]; exact (errCode_range e).2, zeros_responseWord e.code 0,
    fun _ => dataOf_responseWord e.code 0⟩

/-- Every command has a next state (60_exceptions.md R141). -/
theorem exists_exec_eq_next (i : Instr) (s : State) : ∃ t, exec i s = .next t := by
  cases hi : i.wellFormed with
  | true => exact ⟨_, exec_eq_outcome hi s⟩
  | false => exact ⟨_, exec_eq_raise hi s⟩

/-- A command returns one well-formed response. -/
theorem response_of_exec {i : Instr} {s t : State} (h : exec i s = .next t) :
    ∃ r, t.responses = s.responses ++ [r] ∧ WellFormedResponse r := by
  obtain ⟨⟨d, hr, -⟩ | ⟨e, rfl⟩, -⟩ := exec_cases h
  · exact ⟨_, hr, wellFormedResponse_ok d⟩
  · exact ⟨_, rfl, wellFormedResponse_error e⟩

/-- A step that takes a command word, legal or not, returns one well-formed response and advances the index. -/
theorem step_answers {s : State} {w : Word} {rest : List HostInput} (hin : s.inputs = .command w :: rest) :
    ∃ (t : State) (r : Word), step s = .next t ∧ t.responses = s.responses ++ [r] ∧ t.cc = s.cc + 1 ∧
      t.inputs = rest ∧ WellFormedResponse r := by
  cases hd : decode w with
  | ok i =>
    obtain ⟨t, ht⟩ := exists_exec_eq_next i (s.takeInput rest)
    obtain ⟨-, hcc, hinputs, -⟩ := exec_cases ht
    obtain ⟨r, hr, hwf⟩ := response_of_exec ht
    exact ⟨t, r, (step_command hin hd).trans ht, hr, hcc, hinputs, hwf⟩
  | error why => exact ⟨_, _, step_illegal hin hd, rfl, rfl, rfl, wellFormedResponse_error .illegalCommand⟩

/-- Settles O10: `step_answers`, and the fields of a well-formed response as numbers. -/
theorem oneResponsePerCommand : Obligations.OneResponsePerCommand := by
  intro s w rest hin
  obtain ⟨t, r, hstep, hr, hcc, hinputs, hcode, hz, hdata⟩ := step_answers hin
  exact ⟨t, r, hstep, hr, hcc, hinputs, response_toNat hz, codeOf_toNat r, dataOf_toNat r, hz, hcode, hdata⟩

end Sys2Proof.Machine
end

section
/-! The assembler (30_encoding.md R59, R60): which words a line has. -/

namespace Sys2Proof.Machine

/-! ### Lines for commands (R59) -/

/-- The line of one command: the word of its fields, and none where a value does not fit. -/
theorem asmLine_eq (o : Opcode) (a b imm : Nat) :
    (do return [← asmWord o a b imm] : Option (List Word)) =
      if a < 2 ^ 8 ∧ b < 2 ^ 8 ∧ imm < 2 ^ 40 then
        some [makeWord o.toByte (BitVec.ofNat 8 a) (BitVec.ofNat 8 b) (BitVec.ofNat 40 imm)]
      else none := by
  unfold asmWord
  split <;> rfl

theorem asmWord_toNat (o : Opcode) (a b : Byte) (m : Imm) :
    asmWord o a.toNat b.toNat m.toNat = some (makeWord o.toByte a b m) := by
  rw [asmWord, if_pos ⟨a.isLt, b.isLt, m.isLt⟩]
  simp

/-- The line of a command whose operands are field values. -/
theorem asmLine_toNat (o : Opcode) (a b : Byte) (m : Imm) :
    (do return [← asmWord o a.toNat b.toNat m.toNat] : Option (List Word)) = some [makeWord o.toByte a b m] := by
  rw [asmWord_toNat]
  rfl

/-- A command's line is its word. -/
theorem assemble_lineOf (i : Instr) : assemble (lineOf i) = some [encode i] := by
  cases i with
  | nop => exact asmLine_toNat .nop 0 0 0
  | rreg n => exact asmLine_toNat .rreg n.toByte 0 0
  | wreg n v => exact asmLine_toNat .wreg n.toByte 0 v
  | rbyte sp a => exact asmLine_toNat .rbyte sp.toByte 0 a
  | wbyte sp d a => exact asmLine_toNat .wbyte sp.toByte d a
  | getbit sp j => exact asmLine_toNat .getbit sp.toByte 0 j
  | setbit sp b j => cases b with
    | false => exact asmLine_toNat .setbit sp.toByte 0 j
    | true => exact asmLine_toNat .setbit sp.toByte 1 j
  | frame => exact asmLine_toNat .frame 0 0 0
  | plan => exact asmLine_toNat .plan 0 0 0
  | embed => exact asmLine_toNat .embed 0 0 0
  | extract => exact asmLine_toNat .extract 0 0 0

/-! ### Pseudo-instructions (R60) -/

theorem asmWord_eq_none_iff {o : Opcode} {a b imm : Nat} :
    asmWord o a b imm = none ↔ 2 ^ 8 ≤ a ∨ 2 ^ 8 ≤ b ∨ 2 ^ 40 ≤ imm := by
  unfold asmWord
  split <;> simp only [reduceCtorEq, false_iff, true_iff] <;> omega

/-- A list of bytes gives no words exactly where a byte or the last address does not fit. -/
theorem asmBytes_eq_none_iff {space addr : Nat} (hsp : space < 2 ^ 8) {bytes : List Nat} :
    asmBytes space addr bytes = none ↔ (∃ b ∈ bytes, 2 ^ 8 ≤ b) ∨ (bytes ≠ [] ∧ 2 ^ 40 < addr + bytes.length) := by
  induction bytes generalizing addr with
  | nil => simp [asmBytes]
  | cons b bs ih =>
    have hstep : asmBytes space addr (b :: bs) = none ↔
        asmWord .wbyte space b addr = none ∨ asmBytes space (addr + 1) bs = none := by
      rw [asmBytes]
      cases asmWord .wbyte space b addr <;> cases asmBytes space (addr + 1) bs <;> simp
    rw [hstep, asmWord_eq_none_iff, ih, List.exists_mem_cons_iff]
    simp only [← List.length_pos_iff, List.length_cons]
    by_cases hbig : ∃ b ∈ bs, 2 ^ 8 ≤ b
    · simp only [hbig, true_or, or_true]
    · simp only [hbig, false_or, or_false]
      omega

theorem ldpay_eq_none_iff {bytes : List Nat} :
    assemble (.ldpay bytes) = none ↔ (∃ b ∈ bytes, 2 ^ 8 ≤ b) ∨ 2 ^ 40 ≤ bytes.length := by
  have hstep : assemble (.ldpay bytes) = none ↔
      asmBytes 0 0 bytes = none ∨ asmWord .wreg 1 0 bytes.length = none := by
    rw [assemble]
    cases asmBytes 0 0 bytes <;> cases asmWord .wreg 1 0 bytes.length <;> simp
  rw [hstep, asmBytes_eq_none_iff (by decide), asmWord_eq_none_iff, or_assoc]
  refine or_congr_right ?_
  omega

theorem fillch_eq_none_iff {addr n v : Nat} :
    assemble (.fillch addr n v) = none ↔ 0 < n ∧ (2 ^ 8 ≤ v ∨ 2 ^ 40 < addr + n) := by
  rw [assemble, asmBytes_eq_none_iff (by decide)]
  rw [← List.length_pos_iff, List.length_replicate]
  obtain rfl | hn := Nat.eq_zero_or_pos n
  · simp
  · simp [hn, hn.ne']

/-- Settles O55: `assemble_lineOf`, `asmLine_eq` for each command, and the words of the bytes of a pseudo-instruction. -/
theorem assemblerEncodesCommands : Obligations.AssemblerEncodesCommands := by
  refine ⟨assemble_lineOf, fun reg value space addr byte index bit => ⟨?_, ?_, ?_, ?_, ?_, ?_⟩, fun w h => ?_,
    fun _ => ldpay_eq_none_iff, fun _ _ => asmBytes_eq_none_iff (by decide), fun _ _ _ => fillch_eq_none_iff⟩
  · exact (asmLine_eq .rreg reg 0 0).trans (by simp [Opcode.toByte])
  · exact (asmLine_eq .wreg reg 0 value).trans (by simp [Opcode.toByte])
  · exact (asmLine_eq .rbyte space 0 addr).trans (by simp [Opcode.toByte])
  · exact (asmLine_eq .wbyte space byte addr).trans (by simp [Opcode.toByte, and_comm])
  · exact (asmLine_eq .getbit space 0 index).trans (by simp [Opcode.toByte])
  · exact (asmLine_eq .setbit space bit index).trans (by simp [Opcode.toByte, and_comm])
  · exact (asmLine_eq .wreg 2 0 (h * 65536 + w)).trans (by simp [Opcode.toByte])

end Sys2Proof.Machine
end

section
/-! Running the pseudo-instructions (30_encoding.md R60): each expansion loads what its line names. -/

namespace Sys2Proof.Machine

/-! ### A block with words waiting -/

theorem causes_load (s : State) (ws : List Word) (i : Instr) : (s.load ws).causes i = s.causes i := by
  cases i with
  | wreg n v => cases n <;> rfl
  | rbyte sp | wbyte sp | getbit sp | setbit sp => cases sp <;> rfl
  | _ => rfl

theorem effect_load (s : State) (ws : List Word) (i : Instr) : (s.load ws).effect i = (s.effect i).load ws := by
  cases i with
  | wreg n v => cases n <;> rfl
  | wbyte sp | setbit sp => cases sp <;> rfl
  | _ => rfl

@[simp] theorem readByte_load (s : State) (ws : List Word) (sp : Space) (a : Nat) :
    (s.load ws).readByte sp a = s.readByte sp a := by
  cases sp <;> rfl

theorem answer_load (s : State) (ws : List Word) (i : Instr) : (s.load ws).answer i = s.answer i := by
  cases i with
  | rreg n => cases n <;> rfl
  | rbyte sp | getbit sp => cases sp <;> rfl
  | _ => rfl

/-- Running the word of a command none of whose causes holds leaves its effect and its answer, and the words behind it
waiting. -/
theorem run_load_cons {s : State} {i : Instr} (hi : i.wellFormed = true) (hc : firstCause (s.causes i) = none)
    (ws : List Word) :
    Host.Core.run core (encode i :: ws).length (s.load (encode i :: ws)) =
      Host.Core.run core ws.length (((s.effect i).respondOk (s.answer i)).load ws) := by
  refine run_next core _ _ _ ?_
  calc step (s.load (encode i :: ws))
    _ = exec i (s.load ws) := step_command rfl (decodeOfEncode i hi)
    _ = .next (((s.load ws).effect i).respondOk ((s.load ws).answer i)) := exec_eq_respondOk (by rw [causes_load, hc])
    _ = .next (((s.effect i).respondOk (s.answer i)).load ws) := by rw [effect_load, answer_load]; rfl

/-! ### Loading bytes -/

/-- A number that fits IMM is kept in it. -/
theorem imm_ofNat_toNat {n : Nat} (h : n < 2 ^ 40) : (BitVec.ofNat 40 n).toNat = n := Nat.mod_eq_of_lt h

/-- The words of `WBYTE sp, a, b0`; `WBYTE sp, a+1, b1`; ... -/
def wbyteWords (sp : Space) (a : Nat) : List Byte → List Word
  | [] => []
  | b :: bs => encode (.wbyte sp b (BitVec.ofNat 40 a)) :: wbyteWords sp (a + 1) bs

/-- The state those words leave. -/
def State.loadBytes (s : State) (sp : Space) (a : Nat) : List Byte → State
  | [] => s
  | b :: bs => ((s.writeByte sp a b).respondOk 0).loadBytes sp (a + 1) bs

theorem asmBytes_map_toNat {sp : Space} {a : Nat} {bs : List Byte} (h : a + bs.length ≤ 2 ^ 40) :
    asmBytes sp.toByte.toNat a (bs.map BitVec.toNat) = some (wbyteWords sp a bs) := by
  induction bs generalizing a with
  | nil => rfl
  | cons b bs ih =>
    rw [List.length_cons] at h
    have haddr : (BitVec.ofNat 40 a).toNat = a := imm_ofNat_toNat (by omega)
    have hword := asmWord_toNat .wbyte sp.toByte b (BitVec.ofNat 40 a)
    rw [haddr] at hword
    rw [List.map_cons, asmBytes, hword, ih (by omega)]
    rfl

/-- Those words write their bytes, where all addresses exist, and the words behind them are left waiting. -/
theorem run_wbyteWords {s : State} {sp : Space} {a : Nat} {bs : List Byte} (h : a + bs.length ≤ s.sizeOf sp)
    (ws : List Word) :
    Host.Core.run core (wbyteWords sp a bs ++ ws).length (s.load (wbyteWords sp a bs ++ ws)) =
      Host.Core.run core ws.length ((s.loadBytes sp a bs).load ws) := by
  induction bs generalizing s a with
  | nil => rfl
  | cons b bs ih =>
    rw [List.length_cons] at h
    have hmax : s.sizeOf sp < 2 ^ 40 := Nat.lt_of_le_of_lt (sizeOf_le_chMax s sp) s.chMax.isLt
    have haddr : (BitVec.ofNat 40 a).toNat = a := imm_ofNat_toNat (by omega)
    have hc : firstCause (s.causes (.wbyte sp b (BitVec.ofNat 40 a))) = none :=
      if_neg (by rw [haddr, decide_eq_true_eq]; omega)
    have hfit : a + 1 + bs.length ≤ ((s.writeByte sp a b).respondOk 0).sizeOf sp := by
      rw [sizeOf_respondOk, State.writeByte, sizeOf_setMem]
      omega
    rw [wbyteWords, List.cons_append, run_load_cons rfl hc, State.effect, haddr]
    exact ih hfit

theorem sameRegisters_loadBytes (s : State) (sp : Space) (a : Nat) (bs : List Byte) :
    SameRegisters s (s.loadBytes sp a bs) := by
  induction bs generalizing s a with
  | nil => exact ⟨rfl, rfl, rfl, rfl, rfl⟩
  | cons b bs ih =>
    have h := ih ((s.writeByte sp a b).respondOk 0) (a + 1)
    cases sp <;> exact h

/-- The loaded bytes are read from their addresses, and every other byte is as before. -/
theorem readByte_loadBytes (s : State) (sp sp' : Space) (a c : Nat) (bs : List Byte) :
    (s.loadBytes sp a bs).readByte sp' c =
      if sp' = sp ∧ a ≤ c then bs.getD (c - a) (s.readByte sp c) else s.readByte sp' c := by
  induction bs generalizing s a with
  | nil =>
    split
    · rename_i h
      rw [h.1]
      rfl
    · rfl
  | cons b bs ih =>
    rw [State.loadBytes, ih, readByte_respondOk, readByte_respondOk, readByte_writeByte, readByte_writeByte]
    by_cases hsp : sp' = sp
    · subst sp'
      obtain hlt | rfl | hgt := Nat.lt_trichotomy a c
      · have hindex : c - a = c - (a + 1) + 1 := by omega
        rw [if_pos ⟨rfl, hlt⟩, if_neg (by omega), if_pos ⟨rfl, Nat.le_of_lt hlt⟩, hindex, List.getD_cons_succ]
      · simp
      · rw [if_neg (by omega), if_neg (by omega), if_neg (by omega)]
    · simp [hsp, Ne.symm hsp]

/-! ### The pseudo-instructions -/

theorem assemble_setgrid {w h : Nat} (hfit : h * 65536 + w < 2 ^ 40) :
    assemble (.setgrid w h) = some [encode (.wreg .grid (BitVec.ofNat 40 (h * 65536 + w)))] :=
  (asmLine_eq .wreg 2 0 (h * 65536 + w)).trans (if_pos ⟨by decide, by decide, hfit⟩)

theorem assemble_ldpay {bs : List Byte} (hfit : bs.length < 2 ^ 40) :
    assemble (.ldpay (bs.map BitVec.toNat)) =
      some (wbyteWords .pay 0 bs ++ [encode (.wreg .len (BitVec.ofNat 40 bs.length))]) := by
  have hbytes : asmBytes 0 0 (bs.map BitVec.toNat) = some (wbyteWords .pay 0 bs) :=
    asmBytes_map_toNat (sp := .pay) (by omega)
  have hlen : asmWord .wreg 1 0 bs.length = some (encode (.wreg .len (BitVec.ofNat 40 bs.length))) :=
    if_pos ⟨by decide, by decide, hfit⟩
  rw [assemble, hbytes, List.length_map, hlen]
  rfl

/-- Running WREG of a legal value. -/
theorem run_wreg {s : State} {n : Reg} {v : Imm} (hn : n.writable = true) (hv : s.legalValue n v = true) :
    Host.Core.run core 1 (s.load [encode (.wreg n v)]) = .next (((s.setReg n v).respondOk 0).load []) := by
  have hc : firstCause (s.causes (.wreg n v)) = none := by simp [State.causes, firstCause, hv]
  exact run_load_cons (i := .wreg n v) hn hc []

/-- SETGRID with a grid that fits CH. -/
theorem run_setgrid {s : State} {w h : Nat} (hw : w < 65536) (hh : h < 65536) (hfit : 3 * w * h ≤ s.chMax.toNat) :
    ∃ (ws : List Word) (t : State), assemble (.setgrid w h) = some ws ∧
      Host.Core.run core ws.length (s.load ws) = Host.Outcome.next t ∧
      t.width = w ∧ t.height = h ∧ t.k = s.k ∧ t.len = s.len ∧ t.esticky = s.esticky ∧ SameBytes s t := by
  have hv : (BitVec.ofNat 40 (h * 65536 + w)).toNat = h * 65536 + w :=
    imm_ofNat_toNat (by omega)
  have hgrid : ((BitVec.ofNat 40 (h * 65536 + w)).setWidth 32).toNat = h * 65536 + w := by
    rw [BitVec.toNat_setWidth, hv, Nat.mod_eq_of_lt (by omega)]
  have hlow : (h * 65536 + w) % 65536 = w := by omega
  have hhigh : (h * 65536 + w) / 65536 = h := by omega
  have hlegal : s.legalValue .grid (BitVec.ofNat 40 (h * 65536 + w)) = true :=
    legalValue_grid_iff.mpr ⟨by omega, by rw [gridChannels_eq, hgrid, hlow, hhigh]; exact hfit⟩
  refine ⟨_, _, assemble_setgrid (by omega), run_wreg rfl hlegal, ?_, ?_, rfl, rfl, rfl, fun sp a => ?_⟩
  · exact (gridWidth_toNat _).trans ((congrArg (· % 65536) hgrid).trans hlow)
  · exact (gridHeight_toNat _).trans ((congrArg (· / 65536) hgrid).trans hhigh)
  · cases sp <;> rfl

/-- LDPAY with a payload that fits PAY. -/
theorem run_ldpay {s : State} (hs : s.Legal) {bs : List Byte} (hfit : bs.length ≤ s.sizeOf .pay) :
    ∃ (ws : List Word) (t : State), assemble (.ldpay (bs.map BitVec.toNat)) = some ws ∧
      Host.Core.run core ws.length (s.load ws) = Host.Outcome.next t ∧
      t.len.toNat = bs.length ∧ t.k = s.k ∧ t.grid = s.grid ∧ t.esticky = s.esticky ∧
      ∀ sp a, t.readByte sp a = if sp = .pay then bs.getD a (s.readByte .pay a) else s.readByte sp a := by
  obtain ⟨⟨_, hmax⟩, _⟩ := hs
  have hpay : s.sizeOf .pay = s.chMax.toNat - 4 := rfl
  have hv : (BitVec.ofNat 40 bs.length).toNat = bs.length :=
    imm_ofNat_toNat (by omega)
  have hlen : ((BitVec.ofNat 40 bs.length).setWidth 32).toNat = bs.length := by
    rw [BitVec.toNat_setWidth, hv, Nat.mod_eq_of_lt (by omega)]
  obtain ⟨hk, -, hgrid, hes, hch⟩ := sameRegisters_loadBytes s .pay 0 bs
  have hlegal : (s.loadBytes .pay 0 bs).legalValue .len (BitVec.ofNat 40 bs.length) = true :=
    legalValue_len_iff.mpr (by rw [hv, State.payBytes, hch]; exact hfit)
  refine ⟨_, _, assemble_ldpay (by omega), (run_wbyteWords (by omega) _).trans (run_wreg rfl hlegal), hlen, hk, hgrid, hes,
    fun sp a => ?_⟩
  have hbyte := readByte_loadBytes s .pay sp 0 a bs
  simp only [Nat.zero_le, and_true, Nat.sub_zero] at hbyte
  rw [← hbyte]
  cases sp <;> rfl

/-- LDCH with channels that fit CH. -/
theorem run_ldch {s : State} {a : Nat} {bs : List Byte} (hfit : a + bs.length ≤ s.sizeOf .ch) :
    ∃ (ws : List Word) (t : State), assemble (.ldch a (bs.map BitVec.toNat)) = some ws ∧
      Host.Core.run core ws.length (s.load ws) = Host.Outcome.next t ∧ SameRegisters s t ∧
      ∀ sp b, t.readByte sp b =
        if sp = .ch ∧ a ≤ b then bs.getD (b - a) (s.readByte .ch b) else s.readByte sp b := by
  have hmax : s.sizeOf .ch < 2 ^ 40 := s.chMax.isLt
  have hrun := run_wbyteWords hfit []
  rw [List.append_nil] at hrun
  exact ⟨_, _, asmBytes_map_toNat (sp := .ch) (by omega), hrun, sameRegisters_loadBytes s .ch a bs,
    fun sp b => (readByte_load ..).trans (readByte_loadBytes s .ch sp a b bs)⟩

/-- Settles O56: `run_setgrid`, `run_ldpay` and `run_ldch`; FILLCH is LDCH of equal bytes. -/
theorem pseudoInstructionsLoadTheBlock : Obligations.PseudoInstructionsLoadTheBlock := fun _ hs =>
  ⟨fun _ _ => run_setgrid, fun _ => run_ldpay hs, fun _ _ _ => rfl, fun _ _ => run_ldch⟩

end Sys2Proof.Machine
end

section
/-! Host access (40_host_access.md R70 to R74): NOP, RREG, WREG, RBYTE, WBYTE. -/

namespace Sys2Proof.Machine

/-! ### The words of the host access commands (30_encoding.md R51 to R56) -/

/-- A word decodes to a command exactly where it is the word of that command and the command is well formed. -/
theorem decode_eq_ok_iff_encode {w : Word} {i : Instr} : decode w = .ok i ↔ encode i = w ∧ i.wellFormed = true := by
  refine ⟨encodeOfDecode w i, ?_⟩
  rintro ⟨rfl, hi⟩
  exact decodeOfEncode i hi

section

variable {w : Word}

/-- Where OPC is the command's, the other fields of its word and its well-formedness decide. -/
theorem decode_eq_ok_iff_fields {i : Instr} {o a b : Byte} {m : Imm} (hi : encode i = makeWord o a b m)
    (hw : opcOf w = o) :
    decode w = .ok i ↔ (aOf w = a ∧ bOf w = b ∧ immOf w = m) ∧ i.wellFormed = true := by
  rw [decode_eq_ok_iff_encode, hi, makeWord_eq_iff, and_iff_right hw]

theorem decode_eq_rreg_iff {n : Reg} (hw : opcOf w = Opcode.rreg.toByte) :
    decode w = .ok (.rreg n) ↔ aOf w = n.toByte ∧ bOf w = 0 ∧ immOf w = 0 :=
  (decode_eq_ok_iff_fields rfl hw).trans (and_iff_left rfl)

theorem decode_eq_wreg_iff {n : Reg} {v : Imm} (hw : opcOf w = Opcode.wreg.toByte) :
    decode w = .ok (.wreg n v) ↔ (aOf w = n.toByte ∧ bOf w = 0 ∧ immOf w = v) ∧ n.writable = true :=
  decode_eq_ok_iff_fields rfl hw

theorem decode_eq_rbyte_iff {sp : Space} {a : Imm} (hw : opcOf w = Opcode.rbyte.toByte) :
    decode w = .ok (.rbyte sp a) ↔ aOf w = sp.toByte ∧ bOf w = 0 ∧ immOf w = a :=
  (decode_eq_ok_iff_fields rfl hw).trans (and_iff_left rfl)

theorem decode_eq_wbyte_iff {sp : Space} {d : Byte} {a : Imm} (hw : opcOf w = Opcode.wbyte.toByte) :
    decode w = .ok (.wbyte sp d a) ↔ aOf w = sp.toByte ∧ bOf w = d ∧ immOf w = a :=
  (decode_eq_ok_iff_fields rfl hw).trans (and_iff_left rfl)

/-- The one word NOP accepts is the all-zero word (40_host_access.md R70). -/
theorem eq_zero_of_nop_accepts (hw : opcOf w = Opcode.nop.toByte) (h : Opcode.nop.Accepts w) : w = 0 := by
  obtain ⟨hz, -⟩ := h
  simp only [Opcode.format, Format.unusedZero, Bool.and_eq_true, beq_iff_eq] at hz
  obtain ⟨⟨ha, hb⟩, hm⟩ := hz
  exact (makeWord_eq_iff.mpr ⟨hw, ha, hb, hm⟩).symm

end

/-! ### What an error and a store leave -/

/-- A command one of whose causes holds leaves the state of the first. -/
theorem exec_eq_failed {s : State} {i : Instr} {e : ErrCode} (hi : i.wellFormed = true)
    (hc : firstCause (s.causes i) = some e) : exec i s = .next (Failed s e) := by
  rw [exec_eq_outcome hi, State.outcome, hc]
  rfl

/-- The responses of a command that has replaced one memory. -/
theorem responded_setMem (s : State) (sp : Space) (m : Memory) : Responded s ((s.setMem sp m).respondOk 0) 0 0 := by
  cases sp <;> exact ⟨rfl, rfl⟩

theorem sameRegisters_setMem (s : State) (sp : Space) (m : Memory) : SameRegisters s (s.setMem sp m) :=
  ⟨setMem_k .., setMem_len .., setMem_grid .., setMem_esticky .., setMem_chMax ..⟩

theorem sameElsewhere_setMem (s : State) (sp : Space) (m : Memory) : SameElsewhere s (s.setMem sp m) :=
  ⟨setMem_inputs .., setMem_freeNext ..⟩

/-! ### NOP (R70) -/

/-- Settles O11: NOP answers 0; a word with OPC 0 that NOP accepts is zero. -/
theorem nopChangesNothing : Obligations.NopChangesNothing := by
  refine ⟨fun _ => rfl, rfl, fun w hw hne => ?_⟩
  exact (illegal_iff_not_accepts (o := .nop) hw).mpr (mt (eq_zero_of_nop_accepts hw) hne)

/-! ### RREG (R71) -/

/-- Settles O12: each register's value is extended by zeros, and `decode_eq_rreg_iff` reads the word's fields. -/
theorem rregReturnsTheRegister : Obligations.RregReturnsTheRegister := by
  refine ⟨fun s n => ?_, fun w hw => ⟨?_, fun n h => ((decode_eq_rreg_iff hw).mp h).1⟩⟩
  · cases n with
    | k | len | grid | esticky =>
      dsimp only
      rw [BitVec.ofNat_toNat]
      rfl
    | chmax =>
      dsimp only
      rw [BitVec.ofNat_toNat, BitVec.setWidth_eq]
      rfl
  · simp only [decode_eq_rreg_iff hw, exists_and_right, exists_reg_iff]

/-! ### WREG (R72) -/

/-- A value that fits a register is written whole. -/
theorem toNat_setWidth_of_fits {v : Imm} {n : Nat} (h : v.toNat < 2 ^ n) : (v.setWidth n).toNat = v.toNat := by
  rw [BitVec.toNat_setWidth, Nat.mod_eq_of_lt h]

/-- WREG of a register of `width` bits, where `P` says which values are legal and each of them fits: `after x` is the state
once `x` has been written and answered, and every other value is refused. -/
theorem exec_wreg_writes {s : State} {n : Reg} {v : Imm} {width : Nat} {P : Prop} [Decidable P]
    {after : BitVec width → State} (hn : n.writable = true) (hlegal : s.legalValue n v = true ↔ P)
    (hfits : P → v.toNat < 2 ^ width) (hafter : (s.setReg n v).respondOk 0 = after (v.setWidth width)) :
    if P then ∃ x : BitVec width, x.toNat = v.toNat ∧ exec (.wreg n v) s = .next (after x)
    else exec (.wreg n v) s = .next (Failed s .badParam) := by
  rw [exec_wreg hn]
  split
  · rw [if_pos (hlegal.mpr ‹P›), hafter]
    exact ⟨_, toNat_setWidth_of_fits (hfits ‹P›), rfl⟩
  · rw [if_neg (mt hlegal.mp ‹¬P›)]
    rfl

/-- The legal values of GRID as the spec writes them (10_state.md R16). -/
theorem legalValue_grid_iff_div_mod {s : State} {v : Imm} :
    s.legalValue .grid v = true ↔
      v.toNat < 2 ^ 32 ∧ 3 * (v.toNat % 65536) * (v.toNat / 65536) ≤ s.chMax.toNat := by
  simp only [State.legalValue, Bool.and_eq_true, decide_eq_true_eq]

/-- Settles O13: `exec_wreg_writes` for each writable register. -/
theorem wregWritesLegalValuesOnly : Obligations.WregWritesLegalValuesOnly := by
  refine ⟨fun s v hmax => ⟨?_, ?_, ?_⟩, fun w hw => ⟨?_, fun n v h => ?_⟩⟩
  · exact exec_wreg_writes rfl legalValue_k_iff (by omega) rfl
  · exact exec_wreg_writes rfl legalValue_len_iff (by omega) rfl
  · exact exec_wreg_writes rfl legalValue_grid_iff_div_mod And.left rfl
  · rw [← exists_writable_reg_iff]
    simp only [decode_eq_wreg_iff hw]
    constructor
    · rintro ⟨n, v, ⟨ha, hb, -⟩, hn⟩
      exact ⟨⟨n, ha, hn⟩, hb⟩
    · rintro ⟨⟨n, ha, hn⟩, hb⟩
      exact ⟨n, _, ⟨ha, hb, rfl⟩, hn⟩
  · obtain ⟨⟨ha, -, hv⟩, -⟩ := (decode_eq_wreg_iff hw).mp h
    exact ⟨hv.symm, ha⟩

/-! ### RBYTE (R73) -/

/-- Settles O14: `exec_rbyte_ok` below the physical size, and beyond it AddrRange, the one cause. -/
theorem rbyteReturnsTheByte : Obligations.RbyteReturnsTheByte := by
  refine ⟨fun s => ⟨rfl, rfl, rfl⟩, fun s sp a => ?_, fun w hw => ⟨?_, fun sp a h => ?_⟩⟩
  · split
    · rw [exec_rbyte_ok ‹_›, BitVec.ofNat_toNat]
      rfl
    · exact exec_eq_failed rfl (if_pos (decide_eq_true (Nat.le_of_not_lt ‹_›)))
  · rw [← exists_space_iff]
    simp only [decode_eq_rbyte_iff hw, exists_and_left, exists_and_right, exists_eq', and_true]
  · obtain ⟨ha, -, hm⟩ := (decode_eq_rbyte_iff hw).mp h
    exact ⟨hm.symm, ha⟩

/-! ### WBYTE (R74) -/

/-- Settles O15: `exec_wbyte_ok` and `readByte_writeByte` below the physical size, and beyond it AddrRange, the one
cause. -/
theorem wbyteWritesOneByte : Obligations.WbyteWritesOneByte := by
  refine ⟨fun s sp d a => ?_, fun w hw => ⟨?_, fun sp d a h => ?_⟩⟩
  · split
    · refine ⟨_, exec_wbyte_ok ‹_›, responded_setMem .., sameRegisters_setMem .., sameElsewhere_setMem ..,
        fun sp' a' => ?_⟩
      simp only [readByte_respondOk, readByte_writeByte, eq_comm]
    · exact exec_eq_failed rfl (if_pos (decide_eq_true (Nat.le_of_not_lt ‹_›)))
  · rw [← exists_space_iff]
    simp only [decode_eq_wbyte_iff hw, exists_and_left, exists_eq', and_true]
  · obtain ⟨ha, hd, hm⟩ := (decode_eq_wbyte_iff hw).mp h
    exact ⟨hm.symm, hd.symm, ha⟩

end Sys2Proof.Machine
end

section
/-! Bits (41_bitstream.md R80 to R84): GETBIT, SETBIT, and the laws of bit access. -/

namespace Sys2Proof.Machine

/-! ### Bits of a byte as numbers (R80, R81, R84) -/

/-- The bit as the quotient's parity. -/
theorem bitOf_toNat (v : Byte) (i : Nat) : (bitOf v i).toNat = v.toNat / 2 ^ i % 2 := Nat.toNat_testBit v.toNat i

/-- The mask that clears one bit of a byte. -/
theorem clearMask_toNat : ∀ i < 8, (~~~(1#8 <<< i) &&& 0xFF#8).toNat = 255 - 2 ^ i := by decide

/-- One bit in its place in a byte. -/
theorem placedBit_toNat : ∀ (b : Bool), ∀ i < 8, ((BitVec.ofBool b).setWidth 8 <<< i).toNat = b.toNat <<< i := by decide

/-- BitSet's byte: clear the bit, then put the new one in (R81). -/
theorem withBit_toNat (v : Byte) {i : Nat} (hi : i < 8) (b : Bool) :
    (withBit v i b).toNat = (v.toNat &&& (255 - 2 ^ i)) ||| (b.toNat <<< i) := by
  rw [withBit, BitVec.toNat_or, BitVec.toNat_and, clearMask_toNat i hi, placedBit_toNat b i hi]

theorem bitSum_eq_sum (f : Nat → Bool) (n : Nat) : bitSum f n = ∑ i ∈ Finset.range n, (f i).toNat * 2 ^ i := by
  induction n with
  | zero => rfl
  | succ n ih => rw [bitSum, ih, Finset.sum_range_succ]

/-- A byte is the sum of its weighted bits. -/
theorem toNat_eq_sum_bitOf (v : Byte) : v.toNat = ∑ i ∈ Finset.range 8, (bitOf v i).toNat * 2 ^ i := by
  calc v.toNat = (byteOfBits (bitOf v)).toNat := by rw [byteOfBits_bitOf]
    _ = bitSum (bitOf v) 8 := by rw [byteOfBits, BitVec.toNat_ofNat, Nat.mod_eq_of_lt (bitSum_lt _ 8)]
    _ = _ := bitSum_eq_sum ..

/-! ### Bits of a memory (R84) -/

theorem getBit_eq_bitOf_read (sp : Space) (m : Memory) (a : Nat) {i : Nat} (hi : i < 8) :
    Memory.getBit sp m (8 * a + i) = bitOf (Memory.read sp m a) i := by
  rw [Memory.getBit, show (8 * a + i) / 8 = a by omega, show (8 * a + i) % 8 = i by omega]

/-- Two memories in canonical form with the same bits are the same list. -/
theorem eq_of_getBit_eq {sp : Space} {m m' : Memory} (hm : Memory.wf sp m) (hm' : Memory.wf sp m')
    (h : ∀ j, Memory.getBit sp m j = Memory.getBit sp m' j) : m = m' :=
  eq_of_read_eq hm hm' fun a => byte_ext fun i hi => by
    rw [← getBit_eq_bitOf_read sp m a hi, ← getBit_eq_bitOf_read sp m' a hi, h]

/-- Last write: of two writes of one bit the second counts. -/
theorem setBit_setBit_same {sp : Space} {m : Memory} (hm : Memory.wf sp m) (j : Nat) (b b' : Bool) :
    Memory.setBit sp (Memory.setBit sp m j b) j b' = Memory.setBit sp m j b' :=
  eq_of_getBit_eq (wf_setBit (wf_setBit hm _ _) _ _) (wf_setBit hm _ _) fun x => by
    simp only [getBit_setBit]
    split <;> rfl

/-- Writes of different bits commute, also within one byte. -/
theorem setBit_setBit_comm {sp : Space} {m : Memory} (hm : Memory.wf sp m) {j j' : Nat} (hj : j ≠ j') (b b' : Bool) :
    Memory.setBit sp (Memory.setBit sp m j b) j' b' = Memory.setBit sp (Memory.setBit sp m j' b') j b :=
  eq_of_getBit_eq (wf_setBit (wf_setBit hm _ _) _ _) (wf_setBit (wf_setBit hm _ _) _ _) fun x => by
    simp only [getBit_setBit]
    by_cases hx : j' = x
    · subst hx
      rw [if_pos rfl, if_pos rfl, if_neg hj]
    · rw [if_neg hx, if_neg hx]

theorem setMem_setMem (s : State) (sp : Space) (m m' : Memory) : (s.setMem sp m).setMem sp m' = s.setMem sp m' := by
  cases sp <;> rfl

/-- Two stores of bits of one space are one replacement of its memory. -/
theorem setBit_setBit_eq_setMem (s : State) (sp : Space) (j j' : Nat) (b b' : Bool) :
    (s.setBit sp j b).setBit sp j' b' =
      s.setMem sp (Memory.setBit sp (Memory.setBit sp (s.mem sp) j b) j' b') := by
  rw [State.setBit, State.setBit, mem_setMem, if_pos rfl, setMem_setMem]

/-- Settles O20: laws 1 and 2 are `getBit_setBit_state`, laws 3 and 4 hold of the memory, law 5 of the byte. -/
theorem bitAccessLaws : Obligations.BitAccessLaws := by
  refine fun s sp hm => ⟨fun j b => ?_, fun j j' b hj => ?_, fun j b b' => ?_, fun j j' b b' hj => ?_, fun a => ?_⟩
  · rw [getBit_setBit_state, if_pos ⟨rfl, rfl⟩]
  · rw [getBit_setBit_state, if_neg fun h => hj h.2.symm]
  · rw [setBit_setBit_eq_setMem, setBit_setBit_same hm, State.setBit]
  · rw [setBit_setBit_eq_setMem, setBit_setBit_eq_setMem, setBit_setBit_comm hm hj]
  · rw [toNat_eq_sum_bitOf]
    refine Finset.sum_congr rfl fun i hi => ?_
    rw [State.getBit, getBit_eq_bitOf_read _ _ _ (Finset.mem_range.mp hi), State.readByte]

/-! ### BitGet and BitSet (R80, R81) -/

/-- BitGet as division and remainder. -/
theorem getBit_toNat (s : State) (sp : Space) (j : Nat) :
    (s.getBit sp j).toNat = (s.readByte sp (j / 8)).toNat / 2 ^ (j % 8) % 2 := by
  rw [getBit_eq_bitOf_readByte, bitOf_toNat]

/-- BitSet of the value BitGet gives changes no byte, in canonical form or not. -/
theorem sameBytes_setBit_getBit (s : State) (sp : Space) (j : Nat) : SameBytes s (s.setBit sp j (s.getBit sp j)) := by
  intro sp' a
  rw [readByte_setBit]
  split
  · obtain ⟨rfl, rfl⟩ := ‹sp = sp' ∧ j / 8 = a›
    rw [getBit_eq_bitOf_readByte, withBit_bitOf _ (Nat.mod_lt _ (by decide))]
  · rfl

/-- Settles O19: `getBit_toNat`, and `readByte_setBit` with the byte's value from `withBit_toNat`. -/
theorem bitGetAndBitSet : Obligations.BitGetAndBitSet := by
  refine fun s sp j b => ⟨?_, ?_, fun sp' a h => ?_, sameBytes_setBit_getBit s sp j⟩
  · rw [getBit_toNat, Nat.shiftRight_eq_div_pow, Nat.and_one_is_mod]
  · rw [readByte_setBit, if_pos ⟨rfl, rfl⟩, withBit_toNat _ (Nat.mod_lt _ (by decide))]
  · rw [readByte_setBit, if_neg fun ⟨hsp, ha⟩ => h ⟨hsp.symm, ha.symm⟩]

/-! ### The words of the bit commands (30_encoding.md R51 to R56) -/

theorem decode_eq_getbit_iff {w : Word} {sp : Space} {j : Imm} (hw : opcOf w = Opcode.getbit.toByte) :
    decode w = .ok (.getbit sp j) ↔ aOf w = sp.toByte ∧ bOf w = 0 ∧ immOf w = j :=
  (decode_eq_ok_iff_fields rfl hw).trans (and_iff_left rfl)

theorem decode_eq_setbit_iff {w : Word} {sp : Space} {b : Bool} {j : Imm} (hw : opcOf w = Opcode.setbit.toByte) :
    decode w = .ok (.setbit sp b j) ↔ aOf w = sp.toByte ∧ bOf w = (if b then 1 else 0) ∧ immOf w = j :=
  (decode_eq_ok_iff_fields rfl hw).trans (and_iff_left rfl)

/-- Field B of format BW holds a bit exactly where it is 0 or 1. -/
theorem exists_bit_iff {v : Byte} : (∃ b : Bool, v = if b then 1 else 0) ↔ v.toNat ≤ 1 := by
  constructor
  · rintro ⟨b, rfl⟩
    cases b <;> decide
  · exact fun h => ⟨v.getLsbD 0, eq_bit_of_toNat_le_one h⟩

/-! ### GETBIT (R82) -/

/-- DATA of GETBIT is the bit's number. -/
theorem ofBool_setWidth_eq_ofNat (b : Bool) : (BitVec.ofBool b).setWidth 40 = BitVec.ofNat 40 b.toNat := by
  cases b <;> rfl

/-- Settles O17: `exec_getbit_ok` below 8 times the physical size, and beyond it AddrRange, the one cause. -/
theorem getbitReturnsTheBit : Obligations.GetbitReturnsTheBit := by
  refine ⟨fun s sp j => ?_, fun w hw => ⟨?_, fun sp j h => ?_⟩⟩
  · split
    · rw [exec_getbit_ok ‹_›, ofBool_setWidth_eq_ofNat, getBit_toNat]
      rfl
    · exact exec_eq_failed rfl (if_pos (decide_eq_true (Nat.le_of_not_lt ‹_›)))
  · rw [← exists_space_iff]
    simp only [decode_eq_getbit_iff hw, exists_and_left, exists_and_right, exists_eq', and_true]
  · obtain ⟨ha, -, hm⟩ := (decode_eq_getbit_iff hw).mp h
    exact ⟨hm.symm, ha⟩

/-! ### SETBIT (R83) -/

/-- Settles O18: `exec_setbit_ok` and `getBit_setBit_state` below 8 times the physical size, and beyond it AddrRange, the
one cause. -/
theorem setbitWritesOneBit : Obligations.SetbitWritesOneBit := by
  refine ⟨fun s sp b j => ?_, fun w hw => ⟨?_, fun sp b j h => ?_⟩⟩
  · split
    · refine ⟨_, exec_setbit_ok ‹_›, responded_setMem .., sameRegisters_setMem .., sameElsewhere_setMem ..,
        fun sp' j' => ?_⟩
      simp only [getBit_respondOk, getBit_setBit_state, eq_comm]
    · exact exec_eq_failed rfl (if_pos (decide_eq_true (Nat.le_of_not_lt ‹_›)))
  · rw [← exists_space_iff, ← exists_bit_iff]
    simp only [decode_eq_setbit_iff hw, exists_and_left, exists_and_right, exists_eq', and_true]
  · obtain ⟨ha, hb, hm⟩ := (decode_eq_setbit_iff hw).mp h
    exact ⟨hm.symm, by rw [hb]; cases b <;> rfl, ha⟩

end Sys2Proof.Machine
end

section
/-! Framing (42_framing.md R90 to R95): BE32 and UnBE32, the framed payload, FRAME, and the stream EMBED places. -/

namespace Sys2Proof.Machine

/-! ### BE32 and UnBE32 (R90) -/

/-- Byte `n` of BE32 is the byte of the length that starts at bit 8·(3 − n). -/
theorem be32_eq_extractLsb' (l : BitVec 32) (n : Nat) : be32 l n = l.extractLsb' (8 * (3 - n)) 8 := by
  match n with
  | 0 | 1 | 2 => rfl
  | n + 3 => rw [show 3 - (n + 3) = 0 by omega]; rfl

theorem be32_toNat (l : BitVec 32) (n : Nat) : (be32 l n).toNat = l.toNat / 2 ^ (8 * (3 - n)) % 256 := by
  rw [be32_eq_extractLsb', BitVec.extractLsb'_toNat, Nat.shiftRight_eq_div_pow]

theorem bitOf_be32 (l : BitVec 32) (n : Nat) {i : Nat} (hi : i < 8) :
    bitOf (be32 l n) i = l.getLsbD (8 * (3 - n) + i) := by
  rw [bitOf, be32_eq_extractLsb', BitVec.getLsbD_extractLsb', decide_eq_true hi, Bool.true_and]

/-- Laying a field of `n` bits below another multiplies the other by 2^n. -/
theorem append_toNat {m n : Nat} (x : BitVec m) (y : BitVec n) : (x ++ y).toNat = x.toNat * 2 ^ n + y.toNat := by
  rw [BitVec.toNat_append, ← Nat.shiftLeft_add_eq_or_of_lt y.isLt, Nat.shiftLeft_eq]

theorem unBe32_toNat (b0 b1 b2 b3 : Byte) :
    (unBe32 b0 b1 b2 b3).toNat = b0.toNat * 2 ^ 24 + b1.toNat * 2 ^ 16 + b2.toNat * 2 ^ 8 + b3.toNat := by
  rw [unBe32, append_toNat, append_toNat, append_toNat]
  omega

/-- Writing a length read from four bytes gives the four bytes back. -/
theorem be32_unBe32 (b0 b1 b2 b3 : Byte) : (List.range 4).map (be32 (unBe32 b0 b1 b2 b3)) = [b0, b1, b2, b3] := by
  show [be32 _ 0, be32 _ 1, be32 _ 2, be32 _ 3] = _
  simp only [List.cons.injEq, and_true, ← BitVec.toNat_inj, be32_toNat, unBe32_toNat]
  omega

/-- Settles O22: the weights are `be32_toNat` and `unBe32_toNat`, the round trips `unBe32_be32` and `be32_unBe32`. -/
theorem lengthPrefixIsBigEndian : Obligations.LengthPrefixIsBigEndian :=
  ⟨fun l n _ => be32_toNat l n, unBe32_toNat, unBe32_be32, be32_unBe32⟩

/-! ### The framed payload (R91, R94) -/

theorem frameByte_of_lt (l : BitVec 32) (p : Nat → Byte) {n : Nat} (hn : n < 4) : frameByte l p n = be32 l n := if_pos hn

theorem frameByte_four_add (l : BitVec 32) (p : Nat → Byte) (i : Nat) : frameByte l p (4 + i) = p i := by
  rw [frameByte, if_neg (by omega), Nat.add_sub_cancel_left]

/-- The first four bytes of a frame declare its payload's length. -/
theorem unBe32_frameByte (l : BitVec 32) (p : Nat → Byte) :
    unBe32 (frameByte l p 0) (frameByte l p 1) (frameByte l p 2) (frameByte l p 3) = l := unBe32_be32 l

/-- Settles O24: the declared length is `unBe32_frameByte`, so that equal frames have equal lengths, and the payload is
`frameByte_four_add`; a bit of the first four bytes is `bitOf_be32`. -/
theorem framingLaws : Obligations.FramingLaws := by
  refine ⟨fun l p => ⟨unBe32_frameByte l p, fun i _ => frameByte_four_add l p i, fun j hj => ?_⟩,
    fun l l' p p' h => ⟨?_, fun i hi => ?_⟩⟩
  · rw [frameByte_of_lt l p (by omega), bitOf_be32 l _ (Nat.mod_lt _ (by decide))]
  · rw [← unBe32_frameByte l p, h 0 (by omega), h 1 (by omega), h 2 (by omega), h 3 (by omega), unBe32_frameByte]
  · rw [← frameByte_four_add l p i, h (4 + i) (by omega), frameByte_four_add]

/-! ### FRAME (R92) -/

theorem exec_frame (s : State) : exec .frame s = .next (s.buildFrame.respondOk (BitVec.ofNat 40 (s.len.toNat + 4))) := rfl

/-- FRM after FRAME, inside the frame. -/
theorem readByte_buildFrame_of_lt {s : State} {a : Nat} (ha : a < s.len.toNat + 4) :
    s.buildFrame.readByte .frm a = frameByte s.len (s.readByte .pay) a := (read_buildFrame s a).trans (if_pos ha)

/-- FRM after FRAME, beyond the frame. -/
theorem readByte_buildFrame_of_le {s : State} {a : Nat} (ha : s.len.toNat + 4 ≤ a) :
    s.buildFrame.readByte .frm a = s.readByte .frm a := (read_buildFrame s a).trans (if_neg (Nat.not_lt.mpr ha))

theorem decode_eq_frame_iff {w : Word} : decode w = .ok .frame ↔ w = 0x2000000000000000 :=
  decode_eq_ok_iff_encode.trans ((and_iff_left rfl).trans eq_comm)

/-- Settles O23: the bytes of FRM are `readByte_buildFrame_of_lt` and `readByte_buildFrame_of_le`; FRAME writes nothing
else. -/
theorem frameBuildsTheFramedPayload : Obligations.FrameBuildsTheFramedPayload := by
  refine ⟨fun s => ⟨_, exec_frame s, ⟨rfl, rfl⟩, ⟨rfl, rfl, rfl, rfl, rfl⟩, ⟨rfl, rfl⟩, fun _ => rfl, fun _ => rfl,
    fun n hn => ?_, fun i hi => ?_, fun a ha => ?_⟩, fun s hs => hs.frame_fits, fun w _ => decode_eq_frame_iff⟩
  · rw [readByte_respondOk, readByte_buildFrame_of_lt (by omega), frameByte_of_lt _ _ hn, be32_toNat]
  · rw [readByte_respondOk, readByte_buildFrame_of_lt (by omega), frameByte_four_add]
  · rw [readByte_respondOk, readByte_buildFrame_of_le ha]

/-! ### The stream (R95) -/

/-- Stream bit `j` of the framed payload `p` of length `l`. -/
def frameBit (l : BitVec 32) (p : Nat → Byte) (j : Nat) : Bool := bitOf (frameByte l p (j / 8)) (j % 8)

/-- The bits of FRM after FRAME, inside the frame. -/
theorem getBit_buildFrame {s : State} {j : Nat} (hj : j < s.total) :
    s.buildFrame.getBit .frm j = frameBit s.len (s.readByte .pay) j := by
  unfold State.total totalBits at hj
  rw [getBit_eq_bitOf_readByte, readByte_buildFrame_of_lt (by omega), frameBit]

/-- The bits of CH after EMBED: channel j div K holds stream bit j at position j mod K. -/
theorem bitOf_readByte_packFrame {s : State} {j : Nat} (hk : 0 < s.k.toNat) (hk8 : s.k.toNat ≤ 8) (hj : j < s.total) :
    bitOf (s.packFrame.readByte .ch (j / s.k.toNat)) (j % s.k.toNat) = frameBit s.len (s.readByte .pay) j :=
  (streamBit_packBits hk hk8 _ s.ch hj).trans (getBit_buildFrame hj)

/-- Settles O25: FRAME and EMBED build the same frame; its bits are read by `getBit_buildFrame` and placed by
`bitOf_readByte_packFrame`. -/
theorem frameBitsAreTheStream : Obligations.FrameBitsAreTheStream := by
  intro s t j hs ht hj
  cases ht
  have htotal := hs.total_le
  obtain ⟨⟨-, hmax⟩, ⟨hk, hk8⟩, -⟩ := hs
  have hindex : (BitVec.ofNat 40 j).toNat = j := imm_ofNat_toNat (by unfold State.total totalBits at htotal; omega)
  refine ⟨⟨_, exec_getbit_ok ?_, ?_⟩, fun hn hfit => ⟨_, exec_embed_ok hn hfit, ?_⟩⟩
  · rw [hindex, sizeOf_respondOk, sizeOf_buildFrame]
    exact Nat.lt_of_lt_of_le hj htotal
  · rw [hindex, getBit_respondOk, getBit_buildFrame hj, ofBool_setWidth_eq_ofNat]
    exact ⟨rfl, rfl⟩
  · rw [readByte_respondOk]
    exact bitOf_readByte_packFrame hk hk8 hj

end Sys2Proof.Machine
end

section
/-! Capacity (43_capacity.md R100 to R104): the least bit width, fitting as one comparison, PLAN, and what PLAN says about
EMBED. -/

namespace Sys2Proof.Machine

/-! ### The least bit width (R100, R101) -/

/-- Floor + 1 is the ceiling, or one more where the division leaves nothing. -/
theorem div_add_one_eq_ite_ceilDiv {a b : Nat} (hb : 0 < b) :
    a / b + 1 = if b ∣ a then ceilDiv a b + 1 else ceilDiv a b := by
  by_cases h : b ∣ a
  · have hmod : a % b = 0 := Nat.mod_eq_zero_of_dvd h
    rw [if_pos h, ceilDiv_eq hb, if_neg (by omega), Nat.add_zero]
  · have hmod : a % b ≠ 0 := mt Nat.dvd_of_mod_eq_zero h
    rw [if_neg h, ceilDiv_eq hb, if_pos (by omega)]

theorem minK_eq (l n : Nat) : minK l n = (8 * (l + 4) + n - 1) / n := rfl

/-- Settles O26: MinK is a ceiling, so `le_ceilDiv_mul` and `minK_le_iff` make it the least width, and
`div_add_one_eq_ite_ceilDiv` compares it with floor + 1. -/
theorem minKIsTheLeastWidth : Obligations.MinKIsTheLeastWidth := fun _ _ hn =>
  ⟨rfl, minK_eq _ _, le_ceilDiv_mul hn, fun _ => (minK_le_iff hn).mpr, minK_pos hn, div_add_one_eq_ite_ceilDiv hn⟩

/-! ### Fitting (R104) -/

theorem totalBits_le_iff {l c : Nat} : totalBits l ≤ c ↔ l + 4 ≤ c / 8 := by
  unfold totalBits
  omega

theorem cap_of_le {k n : Nat} (h : 4 ≤ k * n / 8) : cap k n = some (k * n / 8 - 4) := if_neg (Nat.not_lt.mpr h)

theorem cap_of_lt {k n : Nat} (h : k * n / 8 < 4) : cap k n = none := if_pos h

theorem totalBits_le_iff_le_cap {k n l : Nat} : totalBits l ≤ k * n ↔ ∃ c, cap k n = some c ∧ l ≤ c := by
  rw [totalBits_le_iff]
  rcases Nat.lt_or_ge (k * n / 8) 4 with h | h
  · simp only [cap_of_lt h, reduceCtorEq, false_and, exists_false, iff_false]
    omega
  · simp only [cap_of_le h, Option.some.injEq, exists_eq_left']
    omega

/-! ### A command's response tells its first cause -/

/-- Each error kind has a code of its own: one less is its place in the list of error kinds. -/
theorem errCode_code_injective : Function.Injective ErrCode.code :=
  Function.LeftInverse.injective (g := fun c => ErrCode.ofNat (c.toNat - 1)) fun e => by cases e <;> rfl

/-- The states of two errors differ in the code returned. -/
theorem raise_eq_failed_iff {s : State} {e e' : ErrCode} : s.raise e' = Failed s e ↔ e' = e := by
  refine ⟨fun h => ?_, fun h => h ▸ rfl⟩
  have hword : responseWord e'.code 0 = responseWord e.code 0 := by simpa [Failed] using congrArg State.responses h
  exact errCode_code_injective (by simpa only [codeOf_responseWord] using congrArg codeOf hword)

/-- A response with code 0 is no error's. -/
theorem not_responded_raise {s : State} {e : ErrCode} {d : Nat} : ¬Responded s (s.raise e) 0 d := by
  rintro ⟨hr, -⟩
  have hword : responseWord e.code 0 = responseWord 0 (BitVec.ofNat 40 d) := by simpa using hr
  exact errCode_ne_zero e (by simpa only [codeOf_responseWord] using congrArg codeOf hword)

/-- The state of a success answers with code 0. -/
theorem responded_effect (s : State) (i : Instr) :
    Responded s ((s.effect i).respondOk (s.answer i)) 0 (s.answer i).toNat := by
  simp [Responded]

/-- A command succeeds exactly where none of its causes holds. -/
theorem exists_responded_iff {i : Instr} {s t : State} (h : exec i s = .next t) :
    (∃ d, Responded s t 0 d) ↔ firstCause (s.causes i) = none := by
  constructor
  · rintro ⟨d, hd⟩
    obtain ⟨e, rfl⟩ | ⟨hc, -⟩ := exec_next_cases h
    · exact absurd hd not_responded_raise
    · exact hc
  · intro hc
    cases h.symm.trans (exec_eq_respondOk hc)
    exact ⟨_, responded_effect s i⟩

/-- A command fails with an error exactly where that is the first of its causes. -/
theorem exec_eq_failed_iff {i : Instr} {s : State} {e : ErrCode} (hi : i.wellFormed = true) :
    exec i s = .next (Failed s e) ↔ firstCause (s.causes i) = some e := by
  refine ⟨fun h => ?_, exec_eq_failed hi⟩
  cases hc : firstCause (s.causes i) with
  | none =>
    obtain ⟨d, hd⟩ := (exists_responded_iff h).mpr hc
    exact absurd hd not_responded_raise
  | some e' =>
    rw [exec_eq_failed hi hc, Host.Outcome.next.injEq] at h
    exact congrArg some (raise_eq_failed_iff.mp h)

/-! ### The causes of PLAN, EMBED and EXTRACT (R102, 44_lsbcodec.md R114, R116) -/

@[simp] theorem firstCause_nil : firstCause [] = none := rfl

/-- A cause is the first where it holds and the ones before it do not. -/
@[simp] theorem firstCause_cons_eq_some_iff {e e' : ErrCode} {b : Bool} {cs : List (ErrCode × Bool)} :
    firstCause ((e', b) :: cs) = some e ↔ (b = true ∧ e' = e) ∨ (b = false ∧ firstCause cs = some e) := by
  cases b <;> simp [firstCause]

theorem firstCause_plan_eq_none_iff {s : State} :
    firstCause (s.causes .plan) = none ↔ s.nch ≠ 0 ∧ minK s.len.toNat s.nch ≤ 8 := by
  simp [firstCause_eq_none_iff, State.causes]

theorem firstCause_plan_eq_insufficientCapacity_iff {s : State} :
    firstCause (s.causes .plan) = some .insufficientCapacity ↔ s.nch ≠ 0 ∧ 8 < minK s.len.toNat s.nch := by
  simp [State.causes]

theorem firstCause_embed_eq_capacityExceeded_iff {s : State} :
    firstCause (s.causes .embed) = some .capacityExceeded ↔ s.nch ≠ 0 ∧ s.capBits < s.total := by
  simp [State.causes]

theorem firstCause_extract_eq_lengthOverflow_iff {s : State} :
    firstCause (s.causes .extract) = some .lengthOverflow ↔
      s.nch ≠ 0 ∧ 32 ≤ s.capBits ∧ s.capBits < totalBits s.declaredLen.toNat := by
  simp [State.causes, totalBits]

/-- PLAN fails where the frame does not fit at bit width 8. -/
theorem exec_plan_eq_failed_iff {s : State} :
    exec .plan s = .next (Failed s .insufficientCapacity) ↔ s.nch ≠ 0 ∧ 8 * s.nch < s.total :=
  (exec_eq_failed_iff rfl).trans <| firstCause_plan_eq_insufficientCapacity_iff.trans <|
    and_congr_right fun hn => lt_minK_iff (Nat.pos_of_ne_zero hn)

/-- EMBED fails where the frame does not fit at the bit width in K. -/
theorem exec_embed_eq_failed_iff {s : State} :
    exec .embed s = .next (Failed s .capacityExceeded) ↔ s.nch ≠ 0 ∧ s.capBits < s.total :=
  (exec_eq_failed_iff rfl).trans firstCause_embed_eq_capacityExceeded_iff

/-- EXTRACT fails where the grid holds the four length bytes and not the frame they declare. -/
theorem exec_extract_eq_failed_iff {s : State} :
    exec .extract s = .next (Failed s .lengthOverflow) ↔
      s.nch ≠ 0 ∧ 32 ≤ s.capBits ∧ s.capBits < totalBits s.declaredLen.toNat :=
  (exec_eq_failed_iff rfl).trans firstCause_extract_eq_lengthOverflow_iff

/-- Settles O27: the numbers are `totalBits_le_iff` and `totalBits_le_iff_le_cap`; on a grid with pixels, the comparison is
what is left of each command's condition. -/
theorem capacityIsOneComparison : Obligations.CapacityIsOneComparison :=
  ⟨fun _ _ _ => ⟨totalBits_le_iff, totalBits_le_iff_le_cap, cap_of_le, cap_of_lt⟩,
    fun _ hn => ⟨exec_plan_eq_failed_iff.trans (and_iff_right hn), exec_embed_eq_failed_iff.trans (and_iff_right hn),
      fun h32 => exec_extract_eq_failed_iff.trans ((and_iff_right hn).trans (and_iff_right h32))⟩⟩

/-! ### PLAN (R102) -/

/-- A bit width up to 8 fits register K. -/
theorem toNat_ofNat_four {k : Nat} (h : k ≤ 8) : (BitVec.ofNat 4 k).toNat = k := Nat.mod_eq_of_lt (by omega)

theorem decode_eq_plan_iff {w : Word} : decode w = .ok .plan ↔ w = 0x2100000000000000 :=
  decode_eq_ok_iff_encode.trans ((and_iff_left rfl).trans eq_comm)

/-- Settles O28: the two errors are PLAN's causes in their order; `exec_plan_ok` is the success, whose width fits K. -/
theorem planLoadsTheLeastWidth : Obligations.PlanLoadsTheLeastWidth := by
  refine ⟨fun s => ?_, fun w _ => decode_eq_plan_iff⟩
  rw [← minK_eq]
  split_ifs with hn hk
  · exact exec_eq_failed rfl (if_pos (beq_iff_eq.mpr hn))
  · exact exec_eq_failed rfl (firstCause_plan_eq_insufficientCapacity_iff.mpr ⟨hn, hk⟩)
  · have hk := Nat.le_of_not_lt hk
    refine ⟨_, toNat_ofNat_four hk, ?_⟩
    rw [exec_plan_ok hn hk, toNat_ofNat_four hk]
    rfl

/-! ### PLAN and EMBED (R103) -/

/-- One bit width less than one above 1 (R103). -/
theorem toNat_sub_one {k : BitVec 4} (h : 1 < k.toNat) : (k - 1).toNat = k.toNat - 1 := by
  bv_omega

/-- PLAN succeeds exactly where the frame has at most one byte a channel. -/
theorem firstCause_plan_eq_none_iff_le_nch {s : State} :
    firstCause (s.causes .plan) = none ↔ 1 ≤ s.nch ∧ s.len.toNat + 4 ≤ s.nch := by
  rw [firstCause_plan_eq_none_iff, Nat.one_le_iff_ne_zero]
  refine and_congr_right fun hn => ?_
  rw [minK_le_iff (Nat.pos_of_ne_zero hn), totalBits_le_iff, Nat.mul_div_cancel_left _ (by decide)]

/-- What PLAN leaves where it succeeds: a grid with pixels, and in K the least bit width at which the frame fits. -/
theorem plan_success {s t : State} (h : exec .plan s = .next t) (hc : firstCause (s.causes .plan) = none) :
    (t.nch = s.nch ∧ t.total = s.total) ∧ s.nch ≠ 0 ∧ t.k.toNat = minK s.len.toNat s.nch := by
  obtain ⟨hn, hk⟩ := firstCause_plan_eq_none_iff.mp hc
  cases h.symm.trans (exec_plan_ok hn hk)
  exact ⟨⟨rfl, rfl⟩, hn, toNat_ofNat_four hk⟩

/-- Settles O29: PLAN leaves the least width at which the frame fits (`plan_success`), and EMBED fails exactly below such a
width (`exec_embed_eq_failed_iff`). -/
theorem planThenEmbed : Obligations.PlanThenEmbed := by
  intro s t h
  refine ⟨fun hr => ?_, fun hfail => ?_, (exists_responded_iff h).trans firstCause_plan_eq_none_iff_le_nch⟩
  · obtain ⟨⟨hnch, htotal⟩, hn, hk⟩ := plan_success h ((exists_responded_iff h).mp hr)
    have hpos := Nat.pos_of_ne_zero hn
    have hfit : s.total ≤ t.k.toNat * s.nch := (minK_le_iff hpos).mp (Nat.le_of_eq hk.symm)
    refine ⟨hfit, ?_, fun h1 => ?_⟩
    · have hembed := exec_embed_ok (s := t) (by rwa [hnch]) (by rwa [State.capBits, hnch, htotal])
      exact ⟨_, _, hembed, rfl, rfl⟩
    · have hless : (t.k.toNat - 1) * s.nch < s.total := (lt_minK_iff hpos).mp (by omega)
      refine ⟨hless, exec_embed_eq_failed_iff.mpr ⟨hnch ▸ hn, ?_⟩⟩
      change (t.k - 1).toNat * t.nch < t.total
      rwa [toNat_sub_one h1, hnch, htotal]
  · obtain ⟨hn, hlt⟩ := exec_plan_eq_failed_iff.mp (hfail ▸ h)
    exact ⟨hlt, fun x _ hx8 =>
      exec_embed_eq_failed_iff.mpr ⟨hn, Nat.lt_of_le_of_lt (Nat.mul_le_mul_right s.nch hx8) hlt⟩⟩

end Sys2Proof.Machine
end

section
/-! The codec (44_lsbcodec.md R110 to R121): EMBED, EXTRACT, the bounds of their accesses, and the round trip. -/

namespace Sys2Proof.Machine

/-! ### Stream bits and stream bytes (R115) -/

theorem streamBit_toNat (ch : Memory) (k j : Nat) :
    (streamBit ch k j).toNat = ((Memory.read .ch ch (j / k)).toNat >>> (j % k)) &&& 1 := by
  rw [streamBit, bitOf_toNat, Nat.shiftRight_eq_div_pow, Nat.and_one_is_mod]

theorem byteOfBits_toNat (f : Nat → Bool) : (byteOfBits f).toNat = ∑ i ∈ Finset.range 8, (f i).toNat * 2 ^ i := by
  rw [byteOfBits, BitVec.toNat_ofNat, Nat.mod_eq_of_lt (bitSum_lt f 8), bitSum_eq_sum]

/-- The last bit of a stream byte exists exactly where the grid offers all bits up to it. -/
theorem streamByte_defined_iff {k n nch : Nat} (hk : 0 < k) : (8 * n + 7) / k < nch ↔ 8 * (n + 1) ≤ k * nch := by
  rw [Nat.div_lt_iff_lt_mul hk, Nat.mul_comm nch k]
  omega

/-- Channels that agree on the bits carrying the first `m` stream bits unpack to the same bytes there. -/
theorem streamByte_eq_of_agree {k m n : Nat} {ch ch' : Memory} (hk : 0 < k)
    (h : ∀ c i, i < k → c * k + i < m → bitOf (Memory.read .ch ch' c) i = bitOf (Memory.read .ch ch c) i)
    (hn : 8 * (n + 1) ≤ m) : streamByte ch' k n = streamByte ch k n :=
  streamByte_congr fun j _ hj => h (j / k) (j % k) (Nat.mod_lt j hk) (by rw [Nat.div_add_mod']; omega)

/-- Settles O33: the values are `streamBit_toNat` and `byteOfBits_toNat`; `streamByte_defined_iff` and
`streamByte_eq_of_agree` are the other two clauses. -/
theorem streamBytesReadLowBitsOnly : Obligations.StreamBytesReadLowBitsOnly := fun ch k n hk _ =>
  ⟨streamBit_toNat ch k, byteOfBits_toNat _, fun _ => streamByte_defined_iff hk,
    fun _ h => streamByte_eq_of_agree hk (fun c i hi _ => h c i hi) (Nat.le_refl (8 * (n + 1)))⟩

/-! ### Bounds (R117) -/

/-- Settles O35: the ranges fit by `State.Legal.declared_fits` and `State.Legal.frame_fits`, and a stream byte is defined
where the grid offers its bits. -/
theorem bulkAccessesStayInside : Obligations.BulkAccessesStayInside := by
  intro s hs _
  have ⟨_, ⟨hk, _⟩, _, hnch, _⟩ := hs
  have hdefined {n m : Nat} (hn : 8 * (n + 1) ≤ m) (hm : m ≤ s.capBits) : (8 * n + 7) / s.k.toNat < s.nch :=
    (streamByte_defined_iff hk).mpr (Nat.le_trans hn hm)
  refine ⟨fun hfit => ?_, fun h32 n hn => hdefined (by omega) h32,
    fun hfit => ⟨?_, hnch, Nat.le_sub_one_of_lt hs.frame_fits⟩⟩
  · have hl := hs.declared_fits hfit
    exact ⟨hl, Nat.le_sub_of_add_le hl, Nat.le_sub_one_of_lt hl,
      fun n hn => hdefined (by unfold totalBits; omega) hfit⟩
  · exact (ceilDiv_le_iff hk).mpr (Nat.mul_comm .. ▸ hfit)

/-! ### EMBED (R114, R111, R112) -/

section

variable {s : State}

/-- The state EMBED leaves where it succeeds. -/
theorem eq_of_exec_embed {t : State} (hn : s.nch ≠ 0) (hfit : s.total ≤ s.capBits) (h : exec .embed s = .next t) :
    t = s.packFrame.respondOk (BitVec.ofNat 40 (ceilDiv s.total s.k.toNat)) :=
  Host.Outcome.next.inj (h.symm.trans (exec_embed_ok hn hfit))

/-- FRM after EMBED, inside the frame. -/
theorem readByte_packFrame_frm_of_lt {a : Nat} (ha : a < s.len.toNat + 4) :
    s.packFrame.readByte .frm a = frameByte s.len (s.readByte .pay) a := readByte_buildFrame_of_lt ha

/-- A channel bit after EMBED: the stream bit the mapping assigns to it, and its old value where there is none. -/
theorem bitOf_readByte_packFrame_eq_ite (hk : 0 < s.k.toNat) (hk8 : s.k.toNat ≤ 8) (c : Nat) {i : Nat} (hi : i < 8) :
    bitOf (s.packFrame.readByte .ch c) i =
      if i < s.k.toNat ∧ c * s.k.toNat + i < s.total then s.packFrame.getBit .frm (c * s.k.toNat + i)
      else bitOf (s.readByte .ch c) i := bitOf_packBits hk hk8 _ s.ch _ c i hi

/-- A channel that EMBED fills holds the stream bits from c·K on. -/
theorem bitOf_readByte_packFrame_of_lt (hk : 0 < s.k.toNat) (hk8 : s.k.toNat ≤ 8) {c i : Nat} (hi : i < s.k.toNat)
    (hc : c < s.total / s.k.toNat) :
    bitOf (s.packFrame.readByte .ch c) i = s.packFrame.getBit .frm (c * s.k.toNat + i) := by
  have hall : (c + 1) * s.k.toNat ≤ s.total := (Nat.le_div_iff_mul_le hk).mp hc
  rw [Nat.succ_mul] at hall
  rw [bitOf_readByte_packFrame_eq_ite hk hk8 c (by omega), if_pos ⟨hi, by omega⟩]

/-- The channels EMBED leaves unpack to the frame it leaves. -/
theorem streamByte_packFrame (hk : 0 < s.k.toNat) (hk8 : s.k.toNat ≤ 8) {n : Nat} (hn : n < s.len.toNat + 4) :
    streamByte s.packFrame.ch s.k.toNat n = s.packFrame.readByte .frm n :=
  streamByte_packBits hk hk8 _ s.ch (by unfold State.total totalBits; omega)

theorem decode_eq_embed_iff {w : Word} : decode w = .ok .embed ↔ w = 0x2200000000000000 :=
  decode_eq_ok_iff_encode.trans ((and_iff_left rfl).trans eq_comm)

end

/-- Settles O30: the two errors are EMBED's causes in their order; on success FRM is the frame FRAME builds, and the channel
bits are `bitOf_readByte_packFrame_eq_ite`. -/
theorem embedPacksTheFrame : Obligations.EmbedPacksTheFrame := by
  refine ⟨fun s hk8 => ?_, fun w _ => decode_eq_embed_iff⟩
  split_ifs with hn hlt
  · exact exec_eq_failed rfl (if_pos (beq_iff_eq.mpr hn))
  · exact exec_embed_eq_failed_iff.mpr ⟨hn, hlt⟩
  · have hfit : s.total ≤ s.capBits := Nat.le_of_not_lt hlt
    refine ⟨_, exec_embed_ok hn hfit, ⟨rfl, rfl⟩, ⟨rfl, rfl, rfl, rfl, rfl⟩, ⟨rfl, rfl⟩, fun _ => rfl,
      fun n h4 => ?_, fun i hi => ?_, fun a ha => readByte_buildFrame_of_le ha,
      fun c i hi => bitOf_readByte_packFrame_eq_ite (k_pos_of_fits hfit) hk8 c hi⟩
    · rw [readByte_respondOk, readByte_packFrame_frm_of_lt (by omega), frameByte_of_lt _ _ h4, be32_toNat]
    · rw [readByte_respondOk, readByte_packFrame_frm_of_lt (by omega), frameByte_four_add]

/-! ### Packed channels as numbers (R121) -/

section

variable {u v : Byte} {r : Nat}

/-- The mask of R121 has the bits from `r` to 7. -/
theorem testBit_highMask : ∀ r ≤ 8, ∀ i < 8, (255 - (2 ^ r - 1)).testBit i = decide (r ≤ i) := by decide

/-- The mask of R121 clears the remainder by 2^r. -/
theorem and_highMask (v : Byte) (hr : r ≤ 8) : v.toNat &&& (255 - (2 ^ r - 1)) = v.toNat / 2 ^ r * 2 ^ r := by
  refine Nat.eq_of_testBit_eq fun i => ?_
  rw [Nat.testBit_and, Nat.testBit_mul_two_pow, Nat.testBit_div_two_pow, BitVec.testBit_toNat, BitVec.testBit_toNat]
  rcases Nat.lt_or_ge i 8 with hi | hi
  · rw [testBit_highMask r hr i hi, Bool.and_comm]
    by_cases hri : r ≤ i
    · rw [Nat.sub_add_cancel hri]
    · rw [decide_eq_false hri, Bool.false_and, Bool.false_and]
  · rw [BitVec.getLsbD_of_ge v i hi, BitVec.getLsbD_of_ge v _ (by omega), Bool.false_and, Bool.and_false]

/-- The weighted bits below `r` are the remainder by 2^r. -/
theorem bitSum_bitOf (v : Byte) (r : Nat) : bitSum (bitOf v) r = v.toNat % 2 ^ r := by
  refine Nat.eq_of_testBit_eq fun i => ?_
  rw [testBit_bitSum, Nat.testBit_mod_two_pow, bitOf, BitVec.testBit_toNat]

/-- Bytes with the same bits from `r` upwards have the same quotient by 2^r. -/
theorem div_two_pow_eq_of_high (h : ∀ i < 8, r ≤ i → bitOf u i = bitOf v i) : u.toNat / 2 ^ r = v.toNat / 2 ^ r := by
  refine Nat.eq_of_testBit_eq fun i => ?_
  rw [Nat.testBit_div_two_pow, Nat.testBit_div_two_pow, BitVec.testBit_toNat, BitVec.testBit_toNat]
  rcases Nat.lt_or_ge (i + r) 8 with hi | hi
  · exact h (i + r) hi (Nat.le_add_left r i)
  · rw [BitVec.getLsbD_of_ge u _ hi, BitVec.getLsbD_of_ge v _ hi]

/-- A byte that has replaced the bits of another below `r`. -/
theorem toNat_of_low_replaced {f : Nat → Bool} (hr : r ≤ 8) (hlow : ∀ i < r, bitOf u i = f i)
    (hhigh : ∀ i < 8, r ≤ i → bitOf u i = bitOf v i) :
    u.toNat = (v.toNat &&& (255 - (2 ^ r - 1))) + ∑ i ∈ Finset.range r, (f i).toNat * 2 ^ i := by
  calc u.toNat = u.toNat / 2 ^ r * 2 ^ r + u.toNat % 2 ^ r := (Nat.div_add_mod' ..).symm
    _ = (v.toNat &&& (255 - (2 ^ r - 1))) + bitSum (bitOf u) r := by
      rw [and_highMask v hr, div_two_pow_eq_of_high hhigh, bitSum_bitOf]
    _ = _ := by
      rw [bitSum_eq_sum]
      exact congrArg _ (Finset.sum_congr rfl fun i hi => by rw [hlow i (Finset.mem_range.mp hi)])

/-- Replacing bits below `r` changes a byte by less than 2^r. -/
theorem toNat_lt_of_high (h : ∀ i < 8, r ≤ i → bitOf u i = bitOf v i) : u.toNat < v.toNat + 2 ^ r := by
  have hq := div_two_pow_eq_of_high h
  calc u.toNat = v.toNat / 2 ^ r * 2 ^ r + u.toNat % 2 ^ r := by rw [← hq, Nat.div_add_mod']
    _ < v.toNat + 2 ^ r := Nat.add_lt_add_of_le_of_lt (Nat.div_mul_le_self ..) (Nat.mod_lt _ (Nat.two_pow_pos r))

end

/-- Settles O31: a channel of EMBED keeps its bits from K upwards, and in the last one from the remainder upwards, and has
stream bits below (`bitOf_readByte_packFrame_eq_ite`), so that `toNat_of_low_replaced` and `toNat_lt_of_high` apply. -/
theorem packedChannelValues : Obligations.PackedChannelValues := by
  intro s t hk hk8 hn hfit h
  obtain rfl := eq_of_exec_embed hn hfit h
  have hbit := fun c i (hi : i < 8) => bitOf_readByte_packFrame_eq_ite hk hk8 c hi
  have hhigh : ∀ c, ∀ i < 8, s.k.toNat ≤ i → bitOf (s.packFrame.readByte .ch c) i = bitOf (s.readByte .ch c) i :=
    fun c i hi hik => by rw [hbit c i hi, if_neg (by omega)]
  have hdiv := Nat.div_add_mod' s.total s.k.toNat
  have hmod := Nat.mod_lt s.total hk
  simp only [readByte_respondOk, getBit_respondOk]
  refine ⟨fun c hc => ?_, fun c hc hr => ?_, fun c hc => ?_, ?_, fun c => ⟨?_, ?_⟩⟩
  · exact toNat_of_low_replaced hk8 (fun i hi => bitOf_readByte_packFrame_of_lt hk hk8 hi hc) (hhigh c)
  · subst hc
    refine toNat_of_low_replaced (by omega) (fun i hi => ?_) fun i hi hri => ?_
    · rw [hbit _ i (by omega), if_pos ⟨by omega, by omega⟩]
    · rw [hbit _ i hi, if_neg (by omega)]
  · refine read_packBits_of_le hk hk8 _ s.ch s.total c ?_
    obtain hlt | ⟨rfl, hr⟩ := hc
    · exact Nat.le_of_lt ((Nat.div_lt_iff_lt_mul hk).mp hlt)
    · omega
  · rw [← ceilDiv_eq hk]
    exact ⟨rfl, rfl⟩
  · exact toNat_lt_of_high (hhigh c)
  · exact toNat_lt_of_high fun i hi hik => (hhigh c i hi hik).symm

/-! ### EXTRACT (R116) -/

theorem firstCause_extract_eq_truncatedStream_iff {s : State} :
    firstCause (s.causes .extract) = some .truncatedStream ↔ s.nch ≠ 0 ∧ s.capBits < 32 := by
  simp [State.causes]

theorem decode_eq_extract_iff {w : Word} : decode w = .ok .extract ↔ w = 0x2300000000000000 :=
  decode_eq_ok_iff_encode.trans ((and_iff_left rfl).trans eq_comm)

section

variable {s : State} {n : Nat}

/-- EXTRACT answers the declared length. -/
theorem responded_unpackPayload (s : State) :
    Responded s (s.unpackPayload.respondOk (s.declaredLen.setWidth 40)) 0 s.declaredLen.toNat := by
  rw [← BitVec.ofNat_toNat]
  exact ⟨rfl, rfl⟩

/-- FRM after EXTRACT, inside the frame. -/
theorem readByte_unpackPayload_frm_of_lt (hn : n < s.declaredLen.toNat + 4) :
    s.unpackPayload.readByte .frm n = streamByte s.ch s.k.toNat n := (read_unpackFrame s n).trans (if_pos hn)

/-- PAY after EXTRACT, inside the payload. -/
theorem readByte_unpackPayload_pay_of_lt (hn : n < s.declaredLen.toNat) :
    s.unpackPayload.readByte .pay n = streamByte s.ch s.k.toNat (4 + n) := (read_unpackPayload s n).trans (if_pos hn)

end

/-- Settles O32: the three errors are EXTRACT's causes in their order; on success the bytes are `read_unpackFrame` and
`read_unpackPayload`. -/
theorem extractUnpacksTheFrame : Obligations.ExtractUnpacksTheFrame := by
  refine ⟨fun s l hl => ?_, fun w _ => decode_eq_extract_iff⟩
  replace hl : l = s.declaredLen := hl
  subst hl
  split_ifs with hn h32 hlt
  · exact exec_eq_failed rfl (if_pos (beq_iff_eq.mpr hn))
  · exact exec_eq_failed rfl (firstCause_extract_eq_truncatedStream_iff.mpr ⟨hn, h32⟩)
  · exact exec_extract_eq_failed_iff.mpr ⟨hn, Nat.le_of_not_lt h32, hlt⟩
  · have hlength : 32 ≤ s.capBits := Nat.le_of_not_lt h32
    have hfit : totalBits s.declaredLen.toNat ≤ s.capBits := Nat.le_of_not_lt hlt
    refine ⟨_, exec_extract_ok hn hlength hfit, responded_unpackPayload s, ⟨rfl, rfl⟩, rfl, rfl, rfl, rfl, rfl,
      fun _ => rfl, ?_⟩
    simp only [readByte_respondOk]
    refine ⟨fun n hin => readByte_unpackPayload_frm_of_lt hin,
      fun n hout => (read_unpackFrame s n).trans (if_neg (Nat.not_lt.mpr hout)), fun n hin => ?_,
      fun n hout => (read_unpackPayload s n).trans (if_neg (Nat.not_lt.mpr hout))⟩
    rw [readByte_unpackPayload_pay_of_lt hin, readByte_unpackPayload_frm_of_lt (by omega)]

/-! ### What EXTRACT consults (R116 corner case 3) -/

/-- EXTRACT's writes with another channel array that unpacks to the same frame. -/
theorem unpackPayload_withCh {s : State} {m : Memory}
    (h : ∀ n < s.declaredLen.toNat + 4, streamByte m s.k.toNat n = streamByte s.ch s.k.toNat n) :
    ({ s with ch := m } : State).declaredLen = s.declaredLen ∧
      ({ s with ch := m } : State).unpackPayload = { s.unpackPayload with ch := m } := by
  have hlen : ({ s with ch := m } : State).declaredLen = s.declaredLen := by
    simp only [State.declaredLen, h 0 (by omega), h 1 (by omega), h 2 (by omega), h 3 (by omega)]
  have hframe : ({ s with ch := m } : State).unpackFrame = { s.unpackFrame with ch := m } := by
    rw [State.unpackFrame, hlen, fill_congr h]
    rfl
  refine ⟨hlen, ?_⟩
  rw [State.unpackPayload, hframe, hlen]
  rfl

/-- Settles O34: channels that agree on the bits consulted unpack to the same frame (`streamByte_eq_of_agree`), and
EXTRACT reads nothing else of them (`unpackPayload_withCh`). -/
theorem extractIgnoresTheRestOfTheChannels : Obligations.ExtractIgnoresTheRestOfTheChannels := by
  intro s m hk _ hn h32 hfit hagree
  obtain ⟨hlen, hwrites⟩ := unpackPayload_withCh (s := s) (m := m) fun n hn =>
    streamByte_eq_of_agree hk hagree (by unfold totalBits; omega)
  refine ⟨_, _, exec_extract_ok hn h32 hfit, responded_unpackPayload s, ?_⟩
  rw [exec_extract_ok (s := { s with ch := m }) hn h32 (by rw [hlen]; exact hfit), hlen, hwrites]
  rfl

/-! ### The round trip (R118) -/

/-- EXTRACT declares the embedded length where the channels unpack to the frame EMBED built. -/
theorem declaredLen_eq_len {s u : State}
    (h : ∀ n < s.len.toNat + 4, streamByte u.ch u.k.toNat n = frameByte s.len (s.readByte .pay) n) :
    u.declaredLen = s.len := by
  rw [State.declaredLen, h 0 (by omega), h 1 (by omega), h 2 (by omega), h 3 (by omega), unBe32_frameByte]

/-- Settles O36: the written channels unpack to the frame (`streamByte_packFrame`), which declares the embedded length; the
check EXTRACT makes is the one EMBED passed. -/
theorem roundTrip : Obligations.RoundTrip := by
  intro s hk8 hn hfit
  have hk : 0 < s.k.toNat := k_pos_of_fits hfit
  refine ⟨_, _, exec_embed_ok (by omega) hfit, ⟨rfl, rfl⟩, fun u huk hug hch => ?_⟩
  replace huk : u.k = s.k := huk
  replace hug : u.grid = s.grid := hug
  simp only [readByte_respondOk] at hch ⊢
  have hframe : ∀ n < s.len.toNat + 4, streamByte u.ch u.k.toNat n = s.packFrame.readByte .frm n := fun n hn => by
    rw [huk, ← streamByte_packFrame hk hk8 hn]
    refine streamByte_eq_of_agree (m := s.total) hk (fun c i _ hci => ?_) (by unfold State.total totalBits; omega)
    have hwritten : c < ceilDiv s.total s.k.toNat := (lt_ceilDiv_iff hk).mpr (by omega)
    exact congrArg (bitOf · i) (hch c hwritten)
  have hlen : u.declaredLen = s.len := declaredLen_eq_len fun n hn => by
    rw [hframe n hn, readByte_packFrame_frm_of_lt hn]
  have hcap : u.capBits = s.capBits := by rw [State.capBits, State.nch, huk, hug]; rfl
  have hpass : s.total ≤ u.capBits := by rw [hcap]; exact hfit
  refine ⟨_, exec_extract_ok (by rw [State.nch, hug]; exact Nat.ne_of_gt hn) ?_ (by rw [hlen]; exact hpass),
    hlen ▸ responded_unpackPayload u, hlen, fun i hi => ?_, fun n hn => ?_⟩
  · unfold State.total totalBits at hpass
    omega
  · rw [readByte_respondOk, readByte_unpackPayload_pay_of_lt (by rw [hlen]; exact hi), hframe _ (by omega),
      readByte_packFrame_frm_of_lt (by omega), frameByte_four_add]
  · rw [readByte_respondOk, readByte_unpackPayload_frm_of_lt (by rw [hlen]; exact hn), hframe n hn]

/-! ### Special widths (R120) -/

/-- At K = 8 unpacking is a byte copy. -/
theorem streamByte_eight (ch : Memory) (n : Nat) : streamByte ch 8 n = Memory.read .ch ch n := by
  rw [← byteOfBits_bitOf (Memory.read .ch ch n)]
  exact byteOfBits_congr fun i hi => getBit_eq_bitOf_read .ch ch n hi

/-- Where K divides 8, a channel lies inside one framed byte. -/
theorem stream_index_of_two_or_four {k c i : Nat} (hk : k = 2 ∨ k = 4) (hi : i < k) :
    (c * k + i) / 8 = c / (8 / k) ∧ (c * k + i) % 8 = c % (8 / k) * k + i := by
  obtain rfl | rfl := hk <;> omega

/-- Settles O37: every width is `bitOf_readByte_packFrame_of_lt`; at K = 8 the channels also unpack to themselves
(`streamByte_eight`), and at K = 2 and 4 `stream_index_of_two_or_four` names the framed byte and its bit. -/
theorem specialWidths : Obligations.SpecialWidths := by
  refine ⟨streamByte_eight, fun n hn => ?_, fun s t hk hk8 hn hfit h => ?_⟩
  · have hbytes : 8 * n / 8 = n := Nat.mul_div_cancel_left n (by decide)
    rw [cap_of_le (hbytes.symm ▸ hn), hbytes]
  · obtain rfl := eq_of_exec_embed hn hfit h
    simp only [readByte_respondOk, getBit_respondOk]
    have hbits : ∀ c i, i < s.k.toNat → c < s.total / s.k.toNat →
        bitOf (s.packFrame.readByte .ch c) i = s.packFrame.getBit .frm (c * s.k.toNat + i) :=
      fun _ _ => bitOf_readByte_packFrame_of_lt hk hk8
    refine ⟨fun h8 c hc => ?_, fun h1 j hj => ?_, fun h24 c i hi hc => ?_, hbits⟩
    · rw [← streamByte_packFrame hk hk8 hc, h8]
      exact (streamByte_eight s.packFrame.ch c).symm
    · simpa [h1] using hbits j 0 hk (by simpa [h1] using hj)
    · have hk24 : s.k.toNat = 2 ∨ s.k.toNat = 4 := h24.imp (congrArg BitVec.toNat) (congrArg BitVec.toNat)
      obtain ⟨hbyte, hpos⟩ := stream_index_of_two_or_four (c := c) hk24 hi
      rw [hbits c i hi hc, getBit_eq_bitOf_readByte, hbyte, hpos]

end Sys2Proof.Machine
end

section
/-! Exceptions (60_exceptions.md R130 to R142): the code a command completes with, what a failing command leaves, and that
no step gets stuck. -/

namespace Sys2Proof.Machine

/-! ### Every step has a next state (R140, R141) -/

/-- Settles O8: `step_nil`. -/
theorem idleBlockHoldsItsState : Obligations.IdleBlockHoldsItsState := fun _ => step_nil

/-- Whatever the port holds, there is a next state. -/
theorem exists_step_eq_next (s : State) : ∃ t, step s = .next t := by
  match hin : s.inputs with
  | [] => exact ⟨_, step_nil hin⟩
  | .command w :: rest =>
    obtain ⟨t, -, hstep, -⟩ := step_answers hin
    exact ⟨t, hstep⟩
  | .reset :: rest => exact ⟨_, step_reset hin⟩
  | .resetDuring w :: rest => exact ⟨_, step_resetDuring hin⟩

/-- Settles O9: by induction on the number of steps, each of which has a next state. -/
theorem everyRunGoesOn : Obligations.EveryRunGoesOn := by
  intro n
  induction n with
  | zero => exact fun s => ⟨s, rfl⟩
  | succ n ih =>
    intro s
    obtain ⟨u, hstep⟩ := exists_step_eq_next s
    obtain ⟨t, hrun⟩ := ih u
    exact ⟨t, (run_next core n s u hstep).trans hrun⟩

/-! ### Several blocks (R142) -/

/-- Settles O57: the step of one block replaces that block alone; a number that names none moves nothing. -/
theorem instancesShareNothing : Obligations.InstancesShareNothing := by
  intro n ss
  cases hn : ss[n]? with
  | none => exact ⟨ss, by rw [stepInstance, hn], rfl, fun _ _ => rfl, fun _ _ hs => nomatch hs⟩
  | some s =>
    obtain ⟨u, hstep⟩ := exists_step_eq_next s
    obtain ⟨hlt, -⟩ := List.getElem?_eq_some_iff.mp hn
    refine ⟨ss.set n u, by rw [stepInstance, hn]; simp only [hstep], List.length_set,
      fun m hm => List.getElem?_set_ne hm.symm, fun s' t hs ht => ?_⟩
    cases hs
    cases hstep.symm.trans ht
    exact List.getElem?_set_self hlt

/-! ### What a command does not read (R136) -/

/-- The causes of a command's errors read neither ESTICKY nor the command port. -/
theorem causes_withEstickyInputs (s : State) (v : BitVec 16) (q : List HostInput) (i : Instr) :
    ({ s with esticky := v, inputs := q } : State).causes i = s.causes i := by
  cases i with
  | wreg n => cases n <;> rfl
  | rbyte sp | wbyte sp | getbit sp | setbit sp => cases sp <;> rfl
  | nop | rreg | frame | plan | embed | extract => rfl

theorem causes_withEsticky (s : State) (v : BitVec 16) (i : Instr) :
    ({ s with esticky := v } : State).causes i = s.causes i := causes_withEstickyInputs s v s.inputs i

theorem causes_takeInput (s : State) (rest : List HostInput) (i : Instr) : (s.takeInput rest).causes i = s.causes i :=
  causes_withEstickyInputs s s.esticky rest i

theorem effect_withEsticky (s : State) (v : BitVec 16) (i : Instr) :
    ({ s with esticky := v } : State).effect i = { s.effect i with esticky := v } := by
  cases i with
  | wreg n => cases n <;> rfl
  | wbyte sp | setbit sp => cases sp <;> rfl
  | nop | rreg | rbyte | getbit | frame | plan | embed | extract => rfl

/-- DATA is read from ESTICKY by one command alone. -/
theorem answer_withEsticky (s : State) (v : BitVec 16) {i : Instr} (hi : i ≠ .rreg .esticky) :
    ({ s with esticky := v } : State).answer i = s.answer i := by
  cases i with
  | rreg n =>
    cases n with
    | esticky => exact absurd rfl hi
    | k | len | grid | chmax => rfl
  | rbyte sp | getbit sp => cases sp <;> rfl
  | nop | wreg | wbyte | setbit | frame | plan | embed | extract => rfl

/-- An error sets its bit in any ESTICKY. -/
theorem raise_withEsticky (s : State) (v : BitVec 16) (e : ErrCode) :
    ({ s with esticky := v } : State).raise e = { s.raise e with esticky := stickySet v e } := rfl

/-- Settles O43: the causes do not read ESTICKY, so that the same error sets its bit (`raise_withEsticky`), or the same
success sets none. -/
theorem estickyAffectsNoCommand : Obligations.EstickyAffectsNoCommand := by
  intro i s t v hr h
  cases hi : i.wellFormed with
  | false =>
    rw [exec_eq_raise hi] at h ⊢
    cases h
    exact ⟨_, rfl, congrArg _ (raise_withEsticky s v _)⟩
  | true =>
    cases hc : firstCause (s.causes i) with
    | some e =>
      rw [exec_eq_failed hi hc] at h
      rw [exec_eq_failed hi (by rw [causes_withEsticky, hc])]
      cases h
      exact ⟨_, rfl, congrArg _ (raise_withEsticky s v e)⟩
    | none =>
      rw [exec_eq_respondOk hc] at h
      rw [exec_eq_respondOk (by rw [causes_withEsticky, hc]), effect_withEsticky, answer_withEsticky s v hr]
      cases h
      exact ⟨0, by simp, by rw [BitVec.ofNat_eq_ofNat, BitVec.or_zero]; rfl⟩

/-! ### The step of a command word, by its causes (R130, R133) -/

theorem wordCauses_of_ok (s : State) {w : Word} {i : Instr} (hd : decode w = .ok i) : s.wordCauses w = s.causes i := by
  rw [State.wordCauses, hd]

theorem wordCauses_of_error (s : State) {w : Word} {why : Illegal} (hd : decode w = .error why) :
    s.wordCauses w = [(.illegalCommand, true)] := by
  rw [State.wordCauses, hd]

section

variable {s : State} {w : Word} {rest : List HostInput}

/-- The step of a word one of whose causes holds is `raise` of the first. -/
theorem step_eq_raise {e : ErrCode} (hin : s.inputs = .command w :: rest) (hc : firstCause (s.wordCauses w) = some e) :
    step s = .next ((s.takeInput rest).raise e) := by
  cases hd : decode w with
  | error why =>
    rw [wordCauses_of_error s hd] at hc
    cases hc
    exact step_illegal hin hd
  | ok i =>
    rw [wordCauses_of_ok s hd] at hc
    obtain ⟨-, hi⟩ := encodeOfDecode w i hd
    rw [step_command hin hd, exec_eq_failed hi (by rw [causes_takeInput, hc])]
    rfl

/-- The step of a word none of whose causes holds is the success of the command it decodes to. -/
theorem step_eq_respondOk (hin : s.inputs = .command w :: rest) (hc : firstCause (s.wordCauses w) = none) :
    ∃ i, decode w = .ok i ∧ step s = .next (((s.takeInput rest).effect i).respondOk ((s.takeInput rest).answer i)) := by
  cases hd : decode w with
  | error why =>
    rw [wordCauses_of_error s hd] at hc
    cases hc
  | ok i =>
    rw [wordCauses_of_ok s hd] at hc
    exact ⟨i, rfl, (step_command hin hd).trans (exec_eq_respondOk (by rw [causes_takeInput, hc]))⟩

/-- The code a command word completes with: that of the first of its causes, 0 where none holds (R131). -/
def State.completionCode (s : State) (w : Word) : BitVec 8 := (firstCause (s.wordCauses w)).elim 0 ErrCode.code

theorem completionCode_of_some {e : ErrCode} (hc : firstCause (s.wordCauses w) = some e) :
    s.completionCode w = e.code := by
  rw [State.completionCode, hc, Option.elim_some]

theorem completionCode_of_none (hc : firstCause (s.wordCauses w) = none) : s.completionCode w = 0 := by
  rw [State.completionCode, hc, Option.elim_none]

/-- The response of a step carries the completion code. -/
theorem codeOf_response {t : State} {r : Word} (hin : s.inputs = .command w :: rest) (h : step s = .next t)
    (hr : t.responses = s.responses ++ [r]) : codeOf r = s.completionCode w := by
  cases hc : firstCause (s.wordCauses w) with
  | some e =>
    cases (step_eq_raise hin hc).symm.trans h
    have hword : responseWord e.code 0 = r := by simpa using hr
    rw [← hword, codeOf_responseWord, completionCode_of_some hc]
  | none =>
    obtain ⟨i, -, hstep⟩ := step_eq_respondOk hin hc
    cases hstep.symm.trans h
    have hword : responseWord 0 ((s.takeInput rest).answer i) = r := by simpa using hr
    rw [← hword, codeOf_responseWord, completionCode_of_none hc]

end

/-- Settles O39: `step_eq_raise` where a cause holds, `step_eq_respondOk` where none does. -/
theorem completionCodeIsTheFirstCause : Obligations.CompletionCodeIsTheFirstCause := by
  intro s w rest hin
  cases hc : firstCause (s.wordCauses w) with
  | some e => exact ⟨_, 0, step_eq_raise hin hc, rfl, rfl⟩
  | none =>
    obtain ⟨i, -, hstep⟩ := step_eq_respondOk hin hc
    exact ⟨_, ((s.takeInput rest).answer i).toNat, hstep, by simp, by simp⟩

/-- Settles O38: a code other than 0 is that of a cause, and the step is `raise` of it. -/
theorem failingCommandChangesOnlyItsStickyBit : Obligations.FailingCommandChangesOnlyItsStickyBit := by
  intro s t w rest r hin h hr hcode
  rw [codeOf_response hin h hr] at hcode ⊢
  cases hc : firstCause (s.wordCauses w) with
  | none => exact absurd (completionCode_of_none hc) hcode
  | some e =>
    cases (step_eq_raise hin hc).symm.trans h
    rw [completionCode_of_some hc]
    rfl

/-! ### The codes of each operation code (R132) -/

/-- The errors the commands of an operation code can have, in the order of their causes. -/
def errorsOf : Opcode → List ErrCode
  | .nop | .rreg | .frame => []
  | .wreg => [.badParam]
  | .rbyte | .wbyte | .getbit | .setbit => [.addrRange]
  | .plan => [.degenerateInput, .insufficientCapacity]
  | .embed => [.degenerateInput, .capacityExceeded]
  | .extract => [.degenerateInput, .truncatedStream, .lengthOverflow]

theorem causes_map_fst (s : State) (i : Instr) : (s.causes i).map Prod.fst = errorsOf i.opcode := by cases i <;> rfl

/-- A row of the table holds 0, IllegalCommand and the commands' own errors. -/
theorem codesOf_toByte_perm (o : Opcode) :
    (codesOf o.toByte).Perm (0 :: 8 :: (errorsOf o).map fun e => e.code.toNat) := by
  cases o <;> decide

theorem mem_codesOf_toByte_iff {o : Opcode} {c : Nat} :
    c ∈ codesOf o.toByte ↔ c = 0 ∨ c = 8 ∨ ∃ e ∈ errorsOf o, e.code.toNat = c := by
  rw [(codesOf_toByte_perm o).mem_iff, List.mem_cons, List.mem_cons, List.mem_map]

/-- IllegalCommand stands in every row. -/
theorem eight_mem_codesOf (opc : Byte) : 8 ∈ codesOf opc := by
  unfold codesOf
  split <;> decide

/-- The first cause is one of the causes. -/
theorem mem_of_firstCause_eq_some {e : ErrCode} {cs : List (ErrCode × Bool)} (h : firstCause cs = some e) :
    e ∈ cs.map Prod.fst := by
  induction cs with
  | nil => cases h
  | cons c cs ih =>
    obtain ⟨e', b⟩ := c
    obtain ⟨-, rfl⟩ | ⟨-, htail⟩ := firstCause_cons_eq_some_iff.mp h
    · exact List.mem_cons_self
    · exact List.mem_cons_of_mem _ (ih htail)

theorem completionCode_of_illegal (s : State) {w : Word} (h : ∃ why, decode w = .error why) :
    s.completionCode w = 8 := by
  obtain ⟨why, hd⟩ := h
  exact completionCode_of_some (e := .illegalCommand) (by rw [wordCauses_of_error s hd]; rfl)

/-- The completion code of a legal word is that of the command's first cause. -/
theorem completionCode_of_ok (s : State) {w : Word} {i : Instr} (hd : decode w = .ok i) :
    s.completionCode w = (firstCause (s.causes i)).elim 0 ErrCode.code := by
  rw [State.completionCode, wordCauses_of_ok s hd]

/-- The completion code does not depend on what waits at the command port. -/
theorem completionCode_load (s : State) (ws : List Word) (w : Word) :
    (s.load ws).completionCode w = s.completionCode w := by
  cases hd : decode w with
  | error why => rw [completionCode_of_illegal _ ⟨why, hd⟩, completionCode_of_illegal _ ⟨why, hd⟩]
  | ok i => rw [completionCode_of_ok _ hd, completionCode_of_ok _ hd, causes_load]

/-- No word completes with a code outside its row. -/
theorem completionCode_mem_codesOf (s : State) (w : Word) : (s.completionCode w).toNat ∈ codesOf (opcOf w) := by
  cases hd : decode w with
  | error why =>
    rw [completionCode_of_illegal s ⟨why, hd⟩]
    exact eight_mem_codesOf _
  | ok i =>
    obtain ⟨rfl, -⟩ := encodeOfDecode w i hd
    rw [completionCode_of_ok s hd, (encode_fields i).1, mem_codesOf_toByte_iff]
    cases hc : firstCause (s.causes i) with
    | none => exact .inl rfl
    | some e => exact .inr (.inr ⟨e, causes_map_fst s i ▸ mem_of_firstCause_eq_some hc, rfl⟩)

/-! ### States and commands for the codes of each row (R132) -/

/-- No operation code accepts 255 in field A, as a register, as a space or as an unused field. -/
theorem illegal_of_aOf_eq {w : Word} (ha : aOf w = 0xFF) : ∃ why, decode w = .error why := by
  refine illegal_iff.mpr fun o _ ⟨hz, hA⟩ => ?_
  rw [ha] at hA
  cases o with
  | nop | frame | plan | embed | extract => simp [Opcode.format, Format.unusedZero, ha] at hz
  | rreg => exact absurd (hA 4 rfl) (by decide)
  | wreg | rbyte | wbyte | getbit | setbit => exact absurd (hA 2 rfl) (by decide)

/-- A block after reset with CH_MAX = 12, K = 8, a grid, and the value `v` in every channel. -/
def imageOf (grid : BitVec 32) (v : Byte) : State :=
  { State.reset with
    k := 8
    grid := grid
    chMax := 12
    ch := Memory.fill .ch (fun _ => v) 0 12 [] }

theorem inv_imageOf {grid : BitVec 32} (hg : gridChannels grid ≤ 12) (v : Byte) : (imageOf grid v).Inv := by
  refine inv_fill (s := { State.reset with k := 8, grid := grid, chMax := 12 }) (sp := .ch) _ ?_ (Nat.le_refl 12)
  exact ⟨⟨by simp, by simp, Nat.zero_le _, hg, fun _ _ _ => BitVec.getLsbD_zero⟩, ⟨wf_nil _, nofun⟩, ⟨wf_nil _, nofun⟩,
    ⟨wf_nil _, nofun⟩⟩

/-- Such an image declares the length whose four bytes are all `v`. -/
theorem declaredLen_imageOf (grid : BitVec 32) (v : Byte) : (imageOf grid v).declaredLen = unBe32 v v v v := by
  have hbyte : ∀ n < 12, streamByte (imageOf grid v).ch (imageOf grid v).k.toNat n = v := fun n hn => by
    refine (streamByte_eight _ n).trans ((read_fill ..).trans (if_pos ?_))
    omega
  rw [State.declaredLen, hbyte 0 (by decide), hbyte 1 (by decide), hbyte 2 (by decide), hbyte 3 (by decide)]

/-- A command of each operation code, its one operand that can be wrong being `v`. -/
def commandWith (v : Imm) : Opcode → Instr
  | .nop => .nop
  | .rreg => .rreg .k
  | .wreg => .wreg .k v
  | .rbyte => .rbyte .pay v
  | .wbyte => .wbyte .pay 0 v
  | .getbit => .getbit .pay v
  | .setbit => .setbit .pay false v
  | .frame => .frame
  | .plan => .plan
  | .embed => .embed
  | .extract => .extract

theorem opcode_commandWith (v : Imm) (o : Opcode) : (commandWith v o).opcode = o := by cases o <;> rfl

theorem wellFormed_commandWith (v : Imm) (o : Opcode) : (commandWith v o).wellFormed = true := by cases o <;> rfl

theorem opcOf_encode_commandWith (v : Imm) (o : Opcode) : opcOf (encode (commandWith v o)) = o.toByte := by
  rw [(encode_fields _).1, opcode_commandWith]

theorem completionCode_encode_commandWith (s : State) (v : Imm) (o : Opcode) :
    s.completionCode (encode (commandWith v o)) =
      (firstCause (s.causes (commandWith v o))).elim 0 ErrCode.code :=
  completionCode_of_ok s (decodeOfEncode _ (wellFormed_commandWith v o))

/-- On a 2 × 2 image that declares the empty payload, a command of every operation code succeeds. -/
theorem firstCause_commandWith_one (o : Opcode) :
    firstCause ((imageOf 0x00020002 0).causes (commandWith 1 o)) = none := by
  cases o with
  | extract =>
    rw [commandWith, firstCause_eq_none_iff, State.causes, declaredLen_imageOf]
    decide
  | nop | rreg | wreg | rbyte | wbyte | getbit | setbit | frame | plan | embed => decide

/-- Each error of a row is the first cause of some command in some state that meets the invariant. -/
theorem exists_firstCause_eq_some {o : Opcode} {e : ErrCode} (h : e ∈ errorsOf o) :
    ∃ (s : State) (v : Imm), s.Inv ∧ firstCause (s.causes (commandWith v o)) = some e := by
  have hempty : (imageOf 0 0).Inv := inv_imageOf (by decide) 0
  have hpixel : (imageOf 0x00010001 0).Inv := inv_imageOf (by decide) 0
  have hfull : (imageOf 0x00020002 0xFF).Inv := inv_imageOf (by decide) 0xFF
  cases o with
  | nop | rreg | frame => nomatch h
  | wreg | rbyte | wbyte | getbit | setbit =>
    obtain rfl := List.mem_singleton.mp h
    exact ⟨_, 0xFFFFFFFFFF, hempty, by decide⟩
  | plan =>
    obtain rfl | rfl := List.mem_pair.mp h
    · exact ⟨_, 0, hempty, by decide⟩
    · exact ⟨_, 0, hpixel, by decide⟩
  | embed =>
    obtain rfl | rfl := List.mem_pair.mp h
    · exact ⟨_, 0, hempty, by decide⟩
    · exact ⟨_, 0, hpixel, by decide⟩
  | extract =>
    obtain rfl | rfl | rfl : e = .degenerateInput ∨ e = .truncatedStream ∨ e = .lengthOverflow := by
      simpa [errorsOf] using h
    · exact ⟨_, 0, hempty, by decide⟩
    · exact ⟨_, 0, hpixel, by decide⟩
    · refine ⟨_, 0, hfull, firstCause_extract_eq_lengthOverflow_iff.mpr ⟨by decide, by decide, ?_⟩⟩
      rw [declaredLen_imageOf]
      decide

/-- Every code of a row is the completion code of some word with that OPC in some state that meets the invariant. -/
theorem exists_completionCode_eq {opc : Byte} {c : Nat} (h : c ∈ codesOf opc) :
    ∃ (s : State) (w : Word), s.Inv ∧ opcOf w = opc ∧ (s.completionCode w).toNat = c := by
  have hillegal : ∃ (s : State) (w : Word), s.Inv ∧ opcOf w = opc ∧ (s.completionCode w).toNat = 8 :=
    ⟨State.reset, makeWord opc 0xFF 0 0, invAtReset, opcOf_makeWord ..,
      by rw [completionCode_of_illegal _ (illegal_of_aOf_eq (aOf_makeWord ..))]; rfl⟩
  cases ho : Opcode.ofByte opc with
  | none =>
    rw [codesOf, ho] at h
    exact List.mem_singleton.mp h ▸ hillegal
  | some o =>
    obtain rfl := opcode_ofByte_eq_some_iff.mp ho
    obtain rfl | rfl | ⟨e, he, rfl⟩ := mem_codesOf_toByte_iff.mp h
    · refine ⟨imageOf 0x00020002 0, _, inv_imageOf (by decide) 0, opcOf_encode_commandWith 1 o, ?_⟩
      rw [completionCode_encode_commandWith, firstCause_commandWith_one]
      rfl
    · exact hillegal
    · obtain ⟨s, v, hs, hc⟩ := exists_firstCause_eq_some he
      refine ⟨s, _, hs, opcOf_encode_commandWith v o, ?_⟩
      rw [completionCode_encode_commandWith, hc]
      rfl

/-- Settles O40: both halves hold of the completion code, which is the response's (`codeOf_response`). -/
theorem codesOfEachCommand : Obligations.CodesOfEachCommand := by
  refine ⟨fun s t w rest r hin h hr => codeOf_response hin h hr ▸ completionCode_mem_codesOf s w, fun opc c h => ?_⟩
  obtain ⟨s, w, hs, hopc, hcode⟩ := exists_completionCode_eq h
  obtain ⟨t, r, hstep, hr, -⟩ := step_answers (s := s.load [w]) rfl
  refine ⟨s.load [w], t, w, r, hs, hopc, rfl, hstep, hr, ?_⟩
  rw [codeOf_response rfl hstep hr, completionCode_load, hcode]

end Sys2Proof.Machine
end

section
/-! Reset and hazards (70_reset_and_hazards.md R150, R151, R162): the reset event, unwritten bytes, and a run of words. -/

namespace Sys2Proof.Machine

/-! ### Which addresses a step lists (R150, R151) -/

theorem writeRanges_takeInput (s : State) (rest : List HostInput) (i : Instr) :
    (s.takeInput rest).writeRanges i = s.writeRanges i := by
  cases i with
  | wbyte sp | setbit sp => simp only [State.writeRanges, sizeOf_takeInput]
  | nop | rreg | wreg | rbyte | getbit | frame | plan | embed | extract => rfl

/-- Bytes that are listed alike read alike. -/
theorem readByte_eq_of_lookup_eq {s t : State} {sp : Space} {a : Nat}
    (h : Memory.lookup (t.mem sp) a = Memory.lookup (s.mem sp) a) : t.readByte sp a = s.readByte sp a :=
  congrArg (Option.getD · (initByte sp a)) h

/-- The ranges the command of a word could write in a state miss an address; an illegal word has none. -/
def State.CannotWrite (s : State) (w : Word) (sp : Space) (a : Nat) : Prop :=
  ∀ i, decode w = .ok i → ∀ r ∈ s.writeRanges i, ¬r.has sp a

section

variable {s : State} {sp : Space} {a : Nat}

theorem cannotWrite_takeInput {w : Word} (rest : List HostInput) (h : s.CannotWrite w sp a) :
    (s.takeInput rest).CannotWrite w sp a := fun i hd => by
  rw [writeRanges_takeInput]
  exact h i hd

/-- A free range is filled with the next free bytes. -/
theorem mem_scramble (s : State) (sp sp' : Space) (base n : Nat) :
    (s.scramble sp base n).mem sp' =
      (s.setMem sp (Memory.fill sp (fun i => Config.freeByte (s.freeNext + i)) base n (s.mem sp))).mem sp' := by
  cases sp' <;> rfl

/-- A free range lists and unlists no address outside it. -/
theorem lookup_scramble {r : ByteRange} (h : ¬r.has sp a) :
    Memory.lookup ((s.scramble r.space r.base r.n).mem sp) a = Memory.lookup (s.mem sp) a := by
  rw [mem_scramble, lookup_setMem_fill h]

theorem lookup_scrambleAll {rs : List ByteRange} (h : ∀ r ∈ rs, ¬r.has sp a) :
    Memory.lookup ((s.scrambleAll rs).mem sp) a = Memory.lookup (s.mem sp) a := by
  induction rs generalizing s with
  | nil => rfl
  | cons r rs ih =>
    obtain ⟨hr, hrs⟩ := List.forall_mem_cons.mp h
    exact (ih hrs).trans (lookup_scramble hr)

/-- An abandoned command lists and unlists no address that it could not write. -/
theorem lookup_abandon {w : Word} (h : s.CannotWrite w sp a) :
    Memory.lookup ((s.abandon w).mem sp) a = Memory.lookup (s.mem sp) a := by
  unfold State.abandon
  split
  · rw [mem_applyReset, lookup_scrambleAll (h _ ‹_›)]
  · rw [mem_applyReset]

/-- Nor does an executed one. -/
theorem lookup_exec {i : Instr} {t : State} (h : ∀ r ∈ s.writeRanges i, ¬r.has sp a) (hexec : exec i s = .next t) :
    Memory.lookup (t.mem sp) a = Memory.lookup (s.mem sp) a := by
  obtain ⟨e, rfl⟩ | ⟨hc, rfl⟩ := exec_next_cases hexec
  · rw [mem_raise]
  · rw [mem_respondOk, lookup_effect hc h]

/-- A step lists and unlists no address but those that the command it executes or abandons could write. -/
theorem lookup_step {t : State}
    (h : ∀ w rest, s.inputs = .command w :: rest ∨ s.inputs = .resetDuring w :: rest → s.CannotWrite w sp a)
    (hstep : step s = .next t) : Memory.lookup (t.mem sp) a = Memory.lookup (s.mem sp) a := by
  match hin : s.inputs with
  | [] =>
    cases (step_nil hin).symm.trans hstep
    rfl
  | .command w :: rest =>
    have hw := cannotWrite_takeInput rest (h w rest (.inl hin))
    cases hd : decode w with
    | ok i => rw [lookup_exec (hw i hd) ((step_command hin hd).symm.trans hstep), mem_takeInput]
    | error why =>
      cases (step_illegal hin hd).symm.trans hstep
      rw [mem_raise, mem_takeInput]
  | .reset :: rest =>
    cases (step_reset hin).symm.trans hstep
    rw [mem_applyReset, mem_takeInput]
  | .resetDuring w :: rest =>
    cases (step_resetDuring hin).symm.trans hstep
    rw [lookup_abandon (cannotWrite_takeInput rest (h w rest (.inr hin))), mem_takeInput]

end

/-! ### The reset event (R150) -/

/-- Settles O52: `step_reset`, and of an abandoned command `abandon_registers` and `lookup_abandon`. -/
theorem resetEventResetsTheRegisters : Obligations.ResetEventResetsTheRegisters := by
  refine fun s rest => ⟨step_reset, fun w hin => ?_⟩
  obtain ⟨hk, hlen, hgrid, hes, hcc, hmax, hinputs, hresponses⟩ := abandon_registers (s.takeInput rest) w
  refine ⟨_, step_resetDuring hin, hk, hlen, hgrid, hes, hmax, hcc, hinputs, hresponses, fun sp a h => ?_⟩
  rw [readByte_eq_of_lookup_eq (lookup_abandon (cannotWrite_takeInput rest h)), readByte_takeInput]

/-! ### Unwritten bytes (R151) -/

theorem readByte_of_lookup_none {s : State} {sp : Space} {a : Nat} (h : Memory.lookup (s.mem sp) a = none) :
    s.readByte sp a = initByte sp a := read_of_lookup_none h

/-- RBYTE and GETBIT answer with a byte inside its space and with its bits, where CH_MAX lets the address and the indices
fit IMM. -/
theorem byte_read_by_commands {s : State} {sp : Space} {a : Nat} (hmax : s.chMax.toNat ≤ 4294967299)
    (ha : a < s.sizeOf sp) :
    (∃ t : State, exec (.rbyte sp (BitVec.ofNat 40 a)) s = .next t ∧ Responded s t 0 (s.readByte sp a).toNat) ∧
      ∀ i < 8, ∃ t : State, exec (.getbit sp (BitVec.ofNat 40 (8 * a + i))) s = .next t ∧
        Responded s t 0 ((s.readByte sp a).getLsbD i).toNat := by
  have hsize := sizeOf_le_chMax s sp
  refine ⟨?_, fun i hi => ?_⟩
  · have haddr : (BitVec.ofNat 40 a).toNat = a := imm_ofNat_toNat (by omega)
    refine ⟨_, exec_rbyte_ok (by rwa [haddr]), responded_respondOk ?_⟩
    rw [haddr]
    exact BitVec.toNat_setWidth_of_le (by decide)
  · have hindex : (BitVec.ofNat 40 (8 * a + i)).toNat = 8 * a + i := imm_ofNat_toNat (by omega)
    refine ⟨_, exec_getbit_ok (by omega), responded_respondOk ?_⟩
    rw [hindex, getBit_eq_bitOf_readByte, show (8 * a + i) / 8 = a by omega, show (8 * a + i) % 8 = i by omega, bitOf]
    cases (s.readByte sp a).getLsbD i <;> rfl

/-- Settles O58: `lookup_step` keeps an address unlisted, and `byte_read_by_commands` reads its free byte. -/
theorem unwrittenBytesReadAlike : Obligations.UnwrittenBytesReadAlike := by
  refine fun sp a => ⟨by cases sp <;> rfl, fun s t hs hstep h => ?_, fun s hs hmax ha => ?_⟩
  · have ht : Memory.lookup (t.mem sp) a = none := (lookup_step (fun w rest hin i => h w rest i hin) hstep).trans hs
    exact ⟨ht, readByte_of_lookup_none ht⟩
  · rw [← readByte_of_lookup_none hs]
    exact byte_read_by_commands hmax ha

/-! ### A run of command words (R162) -/

theorem outcome_load (s : State) (ws : List Word) (i : Instr) : (s.load ws).outcome i = (s.outcome i).load ws := by
  simp only [State.outcome, causes_load, effect_load, answer_load]
  cases firstCause (s.causes i) <;> rfl

/-- A command does the same whatever words wait. -/
theorem exec_load {s t : State} {i : Instr} (h : exec i s = .next t) (ws : List Word) :
    exec i (s.load ws) = .next (t.load ws) := by
  cases hi : i.wellFormed with
  | false =>
    cases (exec_eq_raise hi s).symm.trans h
    exact exec_eq_raise hi _
  | true =>
    cases (exec_eq_outcome hi s).symm.trans h
    rw [exec_eq_outcome hi, outcome_load]

/-- The step of a word does the same whatever words wait behind it, and leaves them waiting. -/
theorem step_load_cons {s t : State} {w : Word} (h : step (s.load [w]) = .next t) (ws : List Word) :
    step (s.load (w :: ws)) = .next (t.load ws) := by
  cases hd : decode w with
  | ok i =>
    have hnil : step (s.load [w]) = exec i (s.load []) := step_command rfl hd
    exact (step_command rfl hd).trans (exec_load (hnil.symm.trans h) ws)
  | error why =>
    have hnil : step (s.load [w]) = .next ((s.load []).raise .illegalCommand) := step_illegal rfl hd
    cases hnil.symm.trans h
    exact step_illegal (s := s.load (w :: ws)) rfl hd

theorem run_load_cons_of_step {s t : State} {w : Word} (h : step (s.load [w]) = .next t) (ws : List Word) :
    Host.Core.run core (w :: ws).length (s.load (w :: ws)) = Host.Core.run core ws.length (t.load ws) :=
  run_next core _ _ _ (step_load_cons h ws)

/-- A run of a list of words ends with the list and returns one response for each. -/
theorem run_answers (s : State) (ws : List Word) : ∃ (t : State) (rs : List Word),
    Host.Core.run core ws.length (s.load ws) = Host.Outcome.next t ∧ rs.length = ws.length ∧
      t.responses = s.responses ++ rs ∧ t.cc = s.cc + ws.length ∧ t.inputs = [] := by
  induction ws generalizing s with
  | nil => exact ⟨s.load [], [], rfl, rfl, (List.append_nil _).symm, rfl, rfl⟩
  | cons w ws ih =>
    obtain ⟨u, r, hstep, hr, hcc, -⟩ := step_answers (s := s.load [w]) rfl
    obtain ⟨t, rs, hrun, hlen, hrs, hcc', hinputs⟩ := ih u
    refine ⟨t, r :: rs, (run_load_cons_of_step hstep ws).trans hrun, congrArg (· + 1) hlen, ?_, ?_, hinputs⟩
    · rw [hrs, hr, List.append_assoc]
      rfl
    · rw [hcc', hcc, List.length_cons, Nat.add_comm ws.length, ← Nat.add_assoc]
      rfl

/-- Settles O54: `run_answers` for the whole list; `step_answers` and `step_load_cons` for one word. -/
theorem runOfCommandsAnswersEach : Obligations.RunOfCommandsAnswersEach := by
  refine ⟨run_answers, fun s w => ?_⟩
  obtain ⟨t, r, hstep, hr, -⟩ := step_answers (s := s.load [w]) rfl
  exact ⟨t, r, hstep, hr, fun ws => ⟨step_load_cons hstep ws, run_load_cons_of_step hstep ws⟩⟩

end Sys2Proof.Machine
end

section
/-! Worked words (30_encoding.md section 8, 95_test_vectors.md V1): what the words the spec spells out decode to. -/

namespace Sys2Proof

open Machine

/-- A legal word is decoded by naming the command it encodes. -/
theorem decode_of_encode_eq {i : Instr} {w : Word} (hw : encode i = w) (hi : i.wellFormed = true) :
    decode w = .ok i :=
  hw ▸ decodeOfEncode i hi

/-- Settles O6: each legal word is the encoding of its command; each illegal one fails one step of decoding (R61). -/
theorem wordsOfTheSpecDecode : Obligations.WordsOfTheSpecDecode := by
  refine ⟨?nop, ?rreg, ?wregK, ?wregGrid, ?rbyte, ?wbyte, ?getbit, ?setbit, ?frame, ?plan, ?embed, ?extract,
    ?badOpcode, ?badUnused, ?badReadOnly, ?badSpace⟩
  case badOpcode | badUnused | badReadOnly | badSpace => decide
  all_goals exact decode_of_encode_eq (by decide) rfl

end Sys2Proof
end
